-- ==== Sys2Proof/Word.lean ====
section
/-! DEFINITION. The two widths in which the block and its host exchange bits: 32-bit packet words and bytes. -/

namespace Sys2Proof

/-- A header or payload word of a packet (R51). -/
abbrev Word := BitVec 32

/-- One byte: of a byte stream that carries packets (R42), and the width of ERR (R23) and of a register id (R39). -/
abbrev Byte := BitVec 8

end Sys2Proof
end

