-- ==== Sys2Proof/Syntax.lean ====
section
/-! DEFINITION. Packets, and the ten commands of 30_encoding.md R63 as syntax. -/

namespace Sys2Proof

/-- A packet: one header word and its payload words (R51). -/
structure Packet where
  header  : Word
  payload : List Word
  deriving DecidableEq, Repr

/-- The fill policies of LCFG (R55). A Custom fill carries its character words; FLEN is their number (R60). -/
inductive Fill where
  | allOnes
  | random
  | custom (chars : List Word)
  deriving DecidableEq, Repr

/-- The commands, one constructor per row of the opcode map (R63). The counts LEN, TC and FLEN of an encoding are the
lengths of the lists here (R61), and BE says whether there is a budget (R57). Tap words stay words: they are read as
signed numbers when LCFG is performed (R59), and so do character words, of which some are no digits (R58). -/
inductive Instr where
  | nop
  | addt
  | adde
  | and
  | xor
  | lda  (chars : List Word)
  | ldb  (chars : List Word)
  | lcfg (u : Fin 16) (ns : Fin 512) (taps : List Word) (fill : Fill)
  | step (u : Fin 16)
  | run  (u : Fin 16) (budget : Option Word)
  deriving DecidableEq, Repr

end Sys2Proof
end

