-- ==== Sys2Proof/WellFormed.lean ====
section
/-! DEFINITION. Which commands the encoding can express: the counts must fit their fields. -/

namespace Sys2Proof

/-- A fill's FLEN is a 32-bit unsigned word (R60). -/
def Fill.wf : Fill → Bool
  | .allOnes      => true
  | .random       => true
  | .custom chars => decide (chars.length < 2 ^ 32)

/-- LEN is 9 bits wide (R54) and TC is 8 bits wide (R55). Every other field is bounded by its type. -/
def Instr.wf : Instr → Bool
  | .nop => true
  | .addt => true
  | .adde => true
  | .and => true
  | .xor => true
  | .lda chars => decide (chars.length < 512)
  | .ldb chars => decide (chars.length < 512)
  | .lcfg _ _ taps fill => decide (taps.length < 256) && fill.wf
  | .step _ => true
  | .run _ _ => true

end Sys2Proof
end

