-- ==== Sys2Proof/Decode.lean ====
section
/-! DEFINITION. The decoder of 30_encoding.md R62, total on every packet and rejecting by name; the encoder, from the
formats R53 to R57; the opcode map R63 as a table; and the byte-stream carrier of 20_memory.md R42. -/

namespace Sys2Proof

/-- Why a packet is illegal (R64). Every one of these is the error IllegalCommand. -/
inductive Reject where
  | undefinedOpcode
  | mustBeZero
  | reservedFill
  | payloadLength
  /-- A byte stream whose bytes are no whole number of words, or no word at all (R42; DEDUCED, log 13). -/
  | byteCount
  deriving DecidableEq, Repr

/-- `h[hi:lo]` as an unsigned value (R14). -/
def bits (h : Word) (hi lo : Nat) : Nat := h.toNat / 2 ^ lo % 2 ^ (hi + 1 - lo)

/-! ### Decoding -/

/-- Format Z (R53): no fields, no payload. -/
def decodeZ (i : Instr) (p : Packet) : Except Reject Instr :=
  if bits p.header 23 0 ≠ 0 then .error .mustBeZero
  else if p.payload.length ≠ 0 then .error .payloadLength
  else .ok i

/-- Format L (R54): LEN character words. -/
def decodeL (mk : List Word → Instr) (p : Packet) : Except Reject Instr :=
  if bits p.header 23 9 ≠ 0 then .error .mustBeZero
  else if p.payload.length ≠ bits p.header 8 0 then .error .payloadLength
  else .ok (mk p.payload)

/-- The unit field U = H[23:20]; every value 0 to 15 decodes (R62). -/
def unitField (h : Word) : Fin 16 := Fin.ofNat 16 (bits h 23 20)

/-- The stage-count field NS = H[8:0] (R55). -/
def stageField (h : Word) : Fin 512 := Fin.ofNat 512 (bits h 8 0)

/-- Format C (R55): TC tap words, then for Custom one FLEN word and FLEN character words. -/
def decodeC (p : Packet) : Except Reject Instr :=
  let u := unitField p.header
  let ns := stageField p.header
  let tc := bits p.header 17 10
  let fpol := bits p.header 19 18
  if bits p.header 9 9 ≠ 0 then .error .mustBeZero
  else if fpol = 0 then
    if p.payload.length ≠ tc then .error .payloadLength else .ok (.lcfg u ns p.payload .allOnes)
  else if fpol = 1 then
    if p.payload.length ≠ tc then .error .payloadLength else .ok (.lcfg u ns p.payload .random)
  else if fpol = 2 then
    match p.payload.drop tc with
    | [] => .error .payloadLength
    | flen :: chars =>
      if chars.length ≠ flen.toNat then .error .payloadLength
      else .ok (.lcfg u ns (p.payload.take tc) (.custom chars))
  else .error .reservedFill

/-- Format U (R56): the unit only. -/
def decodeU (p : Packet) : Except Reject Instr :=
  if bits p.header 19 0 ≠ 0 then .error .mustBeZero
  else if p.payload.length ≠ 0 then .error .payloadLength
  else .ok (.step (unitField p.header))

/-- Format RN (R57): BE budget words. -/
def decodeRN (p : Packet) : Except Reject Instr :=
  if bits p.header 19 1 ≠ 0 then .error .mustBeZero
  else if bits p.header 0 0 = 0 then
    match p.payload with
    | [] => .ok (.run (unitField p.header) none)
    | _ :: _ => .error .payloadLength
  else
    match p.payload with
    | [w] => .ok (.run (unitField p.header) (some w))
    | _ => .error .payloadLength

/-- `decode(H, P)` of R62: by the opcode OP = H[31:24], every opcode not listed being undefined (R64). -/
def decode (p : Packet) : Except Reject Instr :=
  let op := bits p.header 31 24
  if op = 0x00 then decodeZ .nop p
  else if op = 0x01 then decodeZ .addt p
  else if op = 0x02 then decodeZ .adde p
  else if op = 0x03 then decodeZ .and p
  else if op = 0x04 then decodeZ .xor p
  else if op = 0x10 then decodeL .lda p
  else if op = 0x11 then decodeL .ldb p
  else if op = 0x20 then decodeC p
  else if op = 0x21 then decodeU p
  else if op = 0x22 then decodeRN p
  else .error .undefinedOpcode

/-! ### Encoding -/

/-- FPOL of R55. -/
def Fill.fpol : Fill → Nat
  | .allOnes  => 0
  | .random   => 1
  | .custom _ => 2

/-- What follows the tap words (R55): for Custom the FLEN word and the characters, else nothing. -/
def Fill.words : Fill → List Word
  | .allOnes      => []
  | .random       => []
  | .custom chars => BitVec.ofNat 32 chars.length :: chars

/-- A header from its opcode and the value of its bits 23 to 0 (R52). -/
def header (op low : Nat) : Word := BitVec.ofNat 32 (op * 2 ^ 24 + low)

/-- The packet of a command: the header by its format and the payload words in order (R53 to R57, R63). -/
def encode : Instr → Packet
  | .nop       => { header := header 0x00 0, payload := [] }
  | .addt      => { header := header 0x01 0, payload := [] }
  | .adde      => { header := header 0x02 0, payload := [] }
  | .and       => { header := header 0x03 0, payload := [] }
  | .xor       => { header := header 0x04 0, payload := [] }
  | .lda chars => { header := header 0x10 chars.length, payload := chars }
  | .ldb chars => { header := header 0x11 chars.length, payload := chars }
  | .lcfg u ns taps fill =>
    { header := header 0x20 (u.val * 2 ^ 20 + fill.fpol * 2 ^ 18 + taps.length * 2 ^ 10 + ns.val)
      payload := taps ++ fill.words }
  | .step u    => { header := header 0x21 (u.val * 2 ^ 20), payload := [] }
  | .run u none => { header := header 0x22 (u.val * 2 ^ 20), payload := [] }
  | .run u (some w) => { header := header 0x22 (u.val * 2 ^ 20 + 1), payload := [w] }

/-! ### The opcode map -/

/-- The five header formats (R53 to R57). -/
inductive Format where
  | Z | L | C | U | RN
  deriving DecidableEq, Repr

/-- A row of the opcode map (R63). -/
structure OpRow where
  mnemonic : String
  op       : Nat
  format   : Format
  matchH   : Word
  maskH    : Word
  deriving DecidableEq, Repr

/-- The opcode map, as R63 prints it. -/
def opcodeMap : List OpRow :=
  [ ⟨"NOP",  0x00, .Z,  0x00000000#32, 0xFFFFFFFF#32⟩,
    ⟨"ADDT", 0x01, .Z,  0x01000000#32, 0xFFFFFFFF#32⟩,
    ⟨"ADDE", 0x02, .Z,  0x02000000#32, 0xFFFFFFFF#32⟩,
    ⟨"AND",  0x03, .Z,  0x03000000#32, 0xFFFFFFFF#32⟩,
    ⟨"XOR",  0x04, .Z,  0x04000000#32, 0xFFFFFFFF#32⟩,
    ⟨"LDA",  0x10, .L,  0x10000000#32, 0xFFFFFE00#32⟩,
    ⟨"LDB",  0x11, .L,  0x11000000#32, 0xFFFFFE00#32⟩,
    ⟨"LCFG", 0x20, .C,  0x20000000#32, 0xFF000200#32⟩,
    ⟨"STEP", 0x21, .U,  0x21000000#32, 0xFF0FFFFF#32⟩,
    ⟨"RUN",  0x22, .RN, 0x22000000#32, 0xFF0FFFFE#32⟩ ]

/-- "A header selects a row when (H AND mask) = match" (R63). -/
def OpRow.selects (r : OpRow) (h : Word) : Bool := (h &&& r.maskH) == r.matchH

/-- The row of a command in the opcode map, by its mnemonic. -/
def Instr.mnemonic : Instr → String
  | .nop => "NOP"
  | .addt => "ADDT"
  | .adde => "ADDE"
  | .and => "AND"
  | .xor => "XOR"
  | .lda _ => "LDA"
  | .ldb _ => "LDB"
  | .lcfg _ _ _ _ => "LCFG"
  | .step _ => "STEP"
  | .run _ _ => "RUN"

/-- The payload length R61 expects, from the header and, for a Custom fill, the FLEN word P[TC] (`word k` is P[k]).
0 for an opcode the map does not list. -/
def expectedPayload (h : Word) (word : Nat → Word) : Nat :=
  let op := bits h 31 24
  if op = 0x10 ∨ op = 0x11 then bits h 8 0
  else if op = 0x20 then
    if bits h 19 18 = 2 then bits h 17 10 + 1 + (word (bits h 17 10)).toNat else bits h 17 10
  else if op = 0x22 then bits h 0 0
  else 0

/-! ### Packets as bytes (R42) -/

/-- A word as four bytes, "least-significant byte first" (R42). -/
def wordBytes (w : Word) : List Byte :=
  [BitVec.ofNat 8 w.toNat, BitVec.ofNat 8 (w.toNat / 2 ^ 8),
   BitVec.ofNat 8 (w.toNat / 2 ^ 16), BitVec.ofNat 8 (w.toNat / 2 ^ 24)]

/-- The word of four bytes, the first the least significant (R42). -/
def bytesWord (b0 b1 b2 b3 : Byte) : Word :=
  BitVec.ofNat 32 (b0.toNat + b1.toNat * 2 ^ 8 + b2.toNat * 2 ^ 16 + b3.toNat * 2 ^ 24)

/-- The words of a byte stream, `none` when a word is incomplete. -/
def bytesWords : List Byte → Option (List Word)
  | [] => some []
  | b0 :: b1 :: b2 :: b3 :: rest => (bytesWords rest).map (bytesWord b0 b1 b2 b3 :: ·)
  | _ => none

/-- A packet as a byte stream: the header word first, then the payload words in order (DEDUCED, log 13). -/
def Packet.toBytes (p : Packet) : List Byte := (p.header :: p.payload).flatMap wordBytes

/-- The packet of a byte stream; `none` when the bytes are not at least one word and a whole number of words. -/
def Packet.ofBytes (bs : List Byte) : Option Packet :=
  match bytesWords bs with
  | some (h :: payload) => some { header := h, payload := payload }
  | _ => none

/-- The decoder on bytes: total, every stream that is no packet rejected by name. -/
def decodeBytes (bs : List Byte) : Except Reject Instr :=
  match Packet.ofBytes bs with
  | none => .error .byteCount
  | some p => decode p

/-! ### The opcode table's words -/

/-- The packet whose bits are `w`, numbered as the opcode table numbers them: the header is bits 31 to 0, payload word k
is bits 32(k+1)+31 to 32(k+1), every bit at or above `nbits` is 0, and there are as many payload words as R61 expects
(DESIGN CHOICE of this interface, safe, log 14). -/
def tablePacket (nbits w : Nat) : Packet :=
  let v := w % 2 ^ nbits
  let word (k : Nat) : Word := BitVec.ofNat 32 (v / 2 ^ (32 * (k + 1)))
  let h : Word := BitVec.ofNat 32 v
  { header := h, payload := (List.range (expectedPayload h word)).map word }

/-- What the decoder reads from an instruction whose bits are `w`, laid out as bytes. -/
def decodeTableWord (nbits w : Nat) : Option Instr :=
  match decodeBytes (tablePacket nbits w).toBytes with
  | .ok i => some i
  | .error _ => none

end Sys2Proof
end

