-- ==== Sys2Proof/Config.lean ====
section
/-! DEFINITION. What an implementation fixes (the parameters of 00_scope.md R8 to R11 and 20_memory.md R40) and the free
values: what the spec leaves open, as constants with no body. -/

namespace Sys2Proof.Config

/-- The parameters a block is built with (R8, R9, R11). NLFSR (R10) is not among them: it is the number of LFSR instances
that State holds. `seqlenBits` is SEQLEN_BITS; `none` stands for the unbounded counters R11 gives the model. A State holds
one value of this type and no step changes it, so a statement about every state is about every value of the parameters
(DESIGN CHOICE, safe, log 6). -/
structure Params where
  lmax       : Nat
  nmax       : Nat
  seqlenBits : Option Nat
  deriving DecidableEq, Repr

/-- The constraints of R8 and R9. -/
abbrev Params.Ok (p : Params) : Prop :=
  16 ≤ p.lmax ∧ p.lmax ≤ 511 ∧ 8 ≤ p.nmax ∧ p.nmax ≤ 511

/-- The spec's defaults: LMAX = 64 (R8), NMAX = 32 (R9); SEQLEN_BITS is OPEN (R11), unbounded here (DESIGN CHOICE,
unsafe, log 7). -/
def defaults : Params := { lmax := 64, nmax := 32, seqlenBits := none }

/-- The spec's default NLFSR (R10). -/
def nlfsrDefault : Nat := 1

/-- FREE VALUE: bit `i` of draw number `k` that instance `u` takes from ENTROPY, "under no law" (R12;
93_implementation_defined.md row 4). No body: nothing can be proved of a drawn bit. Numbering the draws of each instance by
itself keeps the instances isolated (R47; DESIGN CHOICE in its form, safe, log 5). -/
opaque entropy (u k i : Nat) : Bool

/-- FREE VALUE: what a READ of register `id` gives when the counter behind it holds `v`, at or above 2^SEQLEN_BITS:
"the value it reads is `any value`" (R11; 93_implementation_defined.md row 3; log 7). -/
opaque freeCount (id : Byte) (v : Nat) : Nat

/-- BASE_ADDRESS is OPEN: where a platform places the block (R40). No rule depends on it, and nothing here does (log 8). -/
opaque baseAddress : Nat

end Sys2Proof.Config
end

