-- ==== Sys2Proof/Machine/State.lean ====
section
/-! DEFINITION. The state of the block (10_state.md), the model's own fields beside it, the error taxonomy of
60_exceptions.md R101 as a type, the ways a step can stop, and the state after reset (R115). -/

namespace Sys2Proof.Machine

/-- A BitVector: a length and that many bits (R13). Two are equal only when lengths and bits are. -/
structure BitString where
  len  : Nat
  bits : BitVec len
  deriving DecidableEq, Repr

/-- A vector register with its valid bit: A and B (R19), R (R20). -/
structure VecReg where
  valid : Bool
  vec   : BitString
  deriving DecidableEq, Repr

/-- The registers of one LFSR instance (R25 to R31, R34). -/
structure Lfsr where
  /-- CFG (R25). -/
  cfg     : Bool
  /-- N, the stage count (R26). -/
  n       : Nat
  /-- TAPS, a set of cell indices (R27), held ascending with no repeats (DESIGN CHOICE, safe, log 16). -/
  taps    : List Nat
  /-- STAGES, the front cell first (R28). -/
  stages  : List Bool
  /-- SEQ, the first output first (R29). -/
  seq     : List Bool
  /-- FP, the fingerprint (R30). -/
  fp      : List Bool
  /-- FPV (R30). -/
  fpv     : Bool
  /-- REP (R31). -/
  rep     : Bool
  /-- REPLEN (R31). -/
  replen  : Nat
  /-- RUNDONE (R34). -/
  rundone : Bool
  /-- RUNREP (R34). -/
  runrep  : Bool
  /-- LASTRUN (R34). -/
  lastrun : Nat
  /-- The model's own: how many draws of ENTROPY the instance has taken (log 5). -/
  draws   : Nat
  deriving DecidableEq, Repr

/-- The errors of R101. `emptyInput` is raised only by the CSUM pseudo-operation, never by a packet. -/
inductive ErrorCode where
  | lengthMismatch
  | invalidDigit
  | emptyInput
  | fillTooShort
  | invalidTapIndex
  | invalidLength
  | invalidStageCount
  | emptyTaps
  | noOperand
  | notConfigured
  | illegalCommand
  | invalidUnit
  deriving DecidableEq, Repr

/-- What a READ returns: "a 32-bit word, a natural number, or a bit string (possibly empty)" (R66). -/
inductive ReadValue where
  | word   (w : Word)
  | number (n : Nat)
  | bits   (b : List Bool)
  deriving DecidableEq, Repr

/-- What the host does to the block: ISSUE, READ, and reset (R7, R100, R115). -/
inductive Transaction where
  | issue (p : Packet)
  | read  (id : Byte)
  | reset
  deriving DecidableEq, Repr

/-- The state of the block. NLFSR (R10) is the length of `lfsrs`. -/
structure State where
  /-- LMAX, NMAX and SEQLEN_BITS (R8, R9, R11): no step changes them (log 6). -/
  params  : Config.Params
  /-- AV, ALEN, AD (R19). -/
  a       : VecReg
  /-- BV, BLEN, BD (R19). -/
  b       : VecReg
  /-- RV, RLEN, RD (R20). -/
  r       : VecReg
  /-- PASSES (R21). -/
  passes  : Nat
  /-- ERR (R23). -/
  err     : Byte
  /-- The LFSR instances, instance u at index u (R25 to R34). -/
  lfsrs   : List Lfsr
  /-- The model's own: the transactions the host has presented, oldest first (log 3). -/
  pending : List Transaction
  /-- The model's own: what the latest READ gave the host (log 4). -/
  reply   : Option ReadValue
  deriving DecidableEq, Repr

/-- Why the machine can stop with no next state. -/
inductive Fault where
  /-- Raised by RUN with BE = 0 alone, on an instance whose loop never ends: no cycle count makes REP 1. R90 shows that
  no instance a run from reset can reach is like that. Safe: the block too has no next state there (log 9). -/
  | runNeverRepeats
  deriving DecidableEq, Repr

/-- Why an instruction can have no meaning. -/
inductive Refusal where
  /-- Raised by an arm of `exec` whose instruction has no meaning yet; no arm is like that. Safe: the machine stops. -/
  | notModelled (mnemonic : String)
  deriving DecidableEq, Repr

/-- A vector register after reset: its valid bit 0 (R115). "holds no value": a length and data of 0 bits
(DESIGN CHOICE, unsafe, log 1). -/
def VecReg.reset : VecReg := { valid := false, vec := { len := 0, bits := 0#0 } }

/-- An LFSR instance after reset: CFG = FPV = REP = RUNDONE = RUNREP = LASTRUN = 0 (R115). The registers that hold no
value are 0 or empty (DESIGN CHOICE, unsafe, log 2), and no draw has been taken (log 5). -/
def Lfsr.reset : Lfsr :=
  { cfg := false, n := 0, taps := [], stages := [], seq := [], fp := [], fpv := false, rep := false, replen := 0,
    rundone := false, runrep := false, lastrun := 0, draws := 0 }

/-- The reset state of a block built with the given parameters and number of LFSR instances (R115). -/
def State.resetWith (p : Config.Params) (nlfsr : Nat) : State :=
  { params := p, a := VecReg.reset, b := VecReg.reset, r := VecReg.reset, passes := 0, err := 0#8,
    lfsrs := List.replicate nlfsr Lfsr.reset, pending := [], reply := none }

/-- The machine right after reset (R115), with the spec's default parameters and no transaction presented (R116). -/
def State.reset : State := State.resetWith Config.defaults Config.nlfsrDefault

end Sys2Proof.Machine
end

