-- ==== Sys2Proof/Machine/Ops.lean ====
section
/-! DEFINITION. The named operations over the state: errors and success (60_exceptions.md R101 to R103), the writes of
each register, and reset (R115). The block has no trap, so raising an error is its one exception mechanism, and there is
no return from one: nothing is saved (R106). -/

namespace Sys2Proof.Machine

/-- The error codes of R101. -/
def ErrorCode.code : ErrorCode → Byte
  | .lengthMismatch    => 1#8
  | .invalidDigit      => 2#8
  | .emptyInput        => 3#8
  | .fillTooShort      => 4#8
  | .invalidTapIndex   => 5#8
  | .invalidLength     => 6#8
  | .invalidStageCount => 7#8
  | .emptyTaps         => 8#8
  | .noOperand         => 9#8
  | .notConfigured     => 10#8
  | .illegalCommand    => 11#8
  | .invalidUnit       => 12#8

/-- `raise E`: "the only register it writes is ERR <- code(E)" (R102). -/
def State.raise (s : State) (e : ErrorCode) : State := { s with err := e.code }

/-- A success: ERR <- 0, after the other writes (R103). -/
def State.succeed (s : State) : State := { s with err := 0#8 }

/-- The end of a command performed in state `s`: with an error, `s` but for ERR (R102); else the command's writes and
then ERR <- 0 (R103). -/
def finish (s : State) : Except ErrorCode State → Host.Outcome State Fault Refusal
  | .error e => .next (s.raise e)
  | .ok t    => .next t.succeed

/-- A successful load of A (R19, R97). -/
def State.loadA (s : State) (v : BitString) : State := { s with a := { valid := true, vec := v } }

/-- A successful load of B (R19, R98). -/
def State.loadB (s : State) (v : BitString) : State := { s with b := { valid := true, vec := v } }

/-- The writes of a successful arithmetic command: R and PASSES (R20, R21). -/
def State.setResult (s : State) (v : BitString) (passes : Nat) : State :=
  { s with r := { valid := true, vec := v }, passes := passes }

/-- NLFSR (R10). -/
def State.nlfsr (s : State) : Nat := s.lfsrs.length

/-- Instance `u`; `none` exactly when U >= NLFSR. -/
def State.lfsr? (s : State) (u : Nat) : Option Lfsr := s.lfsrs[u]?

/-- Write the registers of instance `u`. -/
def State.setLfsr (s : State) (u : Nat) (l : Lfsr) : State := { s with lfsrs := s.lfsrs.set u l }

/-- `draw(ENTROPY, n)`: n bits of instance `u`'s draw number `k` (R12, R16). -/
def draw (u k n : Nat) : List Bool := (List.range n).map (Config.entropy u k)

/-- The count of draws after a fill: a Random fill takes one, so that the instance's next one is fresh (R12). -/
def countDraw (k : Nat) : Fill → Nat
  | .allOnes  => k
  | .random   => k + 1
  | .custom _ => k

/-- An instance after reset is asserted: its registers at their reset values (R115); the count of its draws, the model's
own, goes on, so that no draw comes twice (R12; DESIGN CHOICE, safe, log 12). -/
def Lfsr.assertReset (l : Lfsr) : Lfsr := { Lfsr.reset with draws := l.draws }

/-- Asserting reset: every register at its reset value (R115). The parameters, the transactions still pending, the
latest reply and the counts of draws are no registers and stay (DESIGN CHOICE, safe, log 12). -/
def State.assertReset (s : State) : State :=
  { s with a := VecReg.reset, b := VecReg.reset, r := VecReg.reset, passes := 0, err := 0#8
           lfsrs := s.lfsrs.map Lfsr.assertReset }

end Sys2Proof.Machine
end

