-- ==== Sys2Proof/Machine/Operands.lean ====
section
/-! DEFINITION. Every operand form: BitVectors and their values (00_scope.md R13, R14), the operand registers with their
common checks (R69, R73), character words (R58), tap words (R59) and fills (R91). -/

namespace Sys2Proof.Machine

/-! ### BitVectors -/

/-- val(v): the unsigned value (R14). -/
def BitString.val (v : BitString) : Nat := v.bits.toNat

/-- The `len`-bit BitVector of a value, `bits_L(k)` of R14; bits of weight 2^len and above are dropped. -/
def BitString.ofNat (len v : Nat) : BitString := { len := len, bits := BitVec.ofNat len v }

/-- Bit position `p` of a value, as 0 or 1: `x[p]` of R14. -/
def bitAt (x p : Nat) : Nat := (x.testBit p).toNat

/-- The value of a string of bits, most-significant first (R13, R14). -/
def bitsValue (bs : List Bool) : Nat := bs.foldl (fun acc b => 2 * acc + b.toNat) 0

/-- The BitVector of a string of bits, most-significant first (R13). -/
def BitString.ofBits (bs : List Bool) : BitString := BitString.ofNat bs.length (bitsValue bs)

/-- The string of a BitVector: index i is the bit of weight 2^(L-1-i) (R13, R14). -/
def BitString.toBits (v : BitString) : List Bool :=
  (List.range v.len).map fun i => v.val.testBit (v.len - 1 - i)

/-! ### The operands of an arithmetic command -/

/-- The common checks of ADDT, ADDE, AND and XOR, in order: NoOperand, then LengthMismatch (R69, R73). -/
def State.operands (s : State) : Except ErrorCode (BitString × BitString) :=
  if s.a.valid = false ∨ s.b.valid = false then .error .noOperand
  else if s.a.vec.len ≠ s.b.vec.len then .error .lengthMismatch
  else .ok (s.a.vec, s.b.vec)

/-- An arithmetic command: the checks, then R and PASSES from `op L x y`, the value and the number of passes (R20, R21). -/
def arithmetic (op : Nat → Nat → Nat → Nat × Nat) (s : State) : Host.Outcome State Fault Refusal :=
  finish s <|
    match s.operands with
    | .error e => .error e
    | .ok (x, y) =>
      let result := op x.len x.val y.val
      .ok (s.setResult (BitString.ofNat x.len result.1) result.2)

/-! ### Character words -/

/-- The words of the digits '0' and '1' (R58). -/
def isDigit (w : Word) : Bool := w == 0x30#32 || w == 0x31#32

/-- digit(w), applied only to digits (R58). -/
def digit (w : Word) : Bool := w == 0x31#32

/-- The operand of a load: InvalidLength, then InvalidDigit, else the BitVector (R97, R98). -/
def loadOperand (lmax : Nat) (chars : List Word) : Except ErrorCode BitString :=
  if chars.length = 0 ∨ chars.length > lmax then .error .invalidLength
  else if chars.all isDigit = false then .error .invalidDigit
  else .ok (BitString.ofBits (chars.map digit))

/-! ### Tap words and fills -/

/-- t <= 0 or t > n, t = sext_32(P[k]) (R59, R91). -/
def badTap (n : Nat) (w : Word) : Bool := decide (w.toInt ≤ 0 ∨ w.toInt > n)

/-- The set of the cell indices t - 1, duplicates collapsing (R27, R91), ascending. -/
def tapSet (n : Nat) (taps : List Word) : List Nat :=
  (List.range n).filter fun i => taps.any fun w => w.toInt == (i : Int) + 1

/-- The fill of instance `u`, of `n` stages: all ones, its draw number `k` of ENTROPY, or the first n characters of a Custom fill after
FillTooShort and InvalidDigit, every character being checked (R91, D28). -/
def fillBits (n u k : Nat) : Fill → Except ErrorCode (List Bool)
  | .allOnes => .ok (List.replicate n true)
  | .random  => .ok (draw u k n)
  | .custom chars =>
    if chars.length < n then .error .fillTooShort
    else if chars.all isDigit = false then .error .invalidDigit
    else .ok ((chars.take n).map digit)

end Sys2Proof.Machine
end

