-- ==== Sys2Proof/Machine/Adder.lean ====
section
/-! DEFINITION. The addition pass and the two adders (41_adder.md R72, R74, R75). -/

namespace Sys2Proof.Machine

/-- `pass(x, y, L)` (R72): the ripple-carry addition of bit positions 0 to L-1, giving the L-bit sum r and the carry-out
c[L]. The carry is CarryState (R22), 0 at the start of every pass. -/
def pass (x y : Nat) : Nat → Nat × Nat
  | 0 => (0, 0)
  | p + 1 =>
    match pass x y p with
    | (r, c) =>
      let s := bitAt x p + bitAt y p + c
      (r + s % 2 * 2 ^ p, s / 2)

/-- The fold-back loop of ADDE (R75): while the wrap is not zero, add it in by another pass. `n` counts the passes. The
first argument bounds the loop, which ends on a zero wrap before the bound matters (DEDUCED from R79, safe, log 10). -/
def foldBack (len : Nat) : Nat → Nat × Nat → Nat → Nat × Nat
  | 0, (r, _), n => (r, n)
  | fuel + 1, (r, w), n => if w = 0 then (r, n) else foldBack len fuel (pass r w len) (n + 1)

/-- The end-around sum of two L-bit values and its number of passes (R75). -/
def endAround (len x y : Nat) : Nat × Nat := foldBack len (len + 1) (pass x y len) 1

/-- ADDT (R74): one pass, its carry-out discarded; PASSES <- 1. -/
def execAddt (s : State) : Host.Outcome State Fault Refusal :=
  arithmetic (fun len x y => ((pass x y len).1, 1)) s

/-- ADDE (R75): passes until the wrap is zero; PASSES <- their number. -/
def execAdde (s : State) : Host.Outcome State Fault Refusal := arithmetic endAround s

end Sys2Proof.Machine
end

