-- ==== Sys2Proof/Machine/Bitwise.lean ====
section
/-! DEFINITION. AND and XOR (40_bitvector.md R70, R71). -/

namespace Sys2Proof.Machine

/-- AND (R70): RD <- AD AND BD; PASSES <- 0. -/
def execAnd (s : State) : Host.Outcome State Fault Refusal :=
  arithmetic (fun _ x y => (x &&& y, 0)) s

/-- XOR (R71): RD <- AD XOR BD; PASSES <- 0. -/
def execXor (s : State) : Host.Outcome State Fault Refusal :=
  arithmetic (fun _ x y => (x ^^^ y, 0)) s

end Sys2Proof.Machine
end

