-- ==== Sys2Proof/Machine/Interface.lean ====
section
/-! DEFINITION. NOP, LDA and LDB (44_interface.md R96 to R98). -/

namespace Sys2Proof.Machine

/-- NOP (R96): ERR <- 0 and nothing else. -/
def execNop (s : State) : Host.Outcome State Fault Refusal := finish s (.ok s)

/-- LDA (R97). -/
def execLda (chars : List Word) (s : State) : Host.Outcome State Fault Refusal :=
  finish s ((loadOperand s.params.lmax chars).map s.loadA)

/-- LDB (R98). -/
def execLdb (chars : List Word) (s : State) : Host.Outcome State Fault Refusal :=
  finish s ((loadOperand s.params.lmax chars).map s.loadB)

end Sys2Proof.Machine
end

