-- ==== Sys2Proof/Machine/LfsrUnit.lean ====
section
/-! DEFINITION. The LFSR cycle (43_lfsr.md R88), LCFG (R91), STEP (R92) and RUN (R93). -/

namespace Sys2Proof.Machine

/-! ### The cycle -/

/-- The feedback: XOR-reduce of STAGES at the tap indices, 0 for the empty set (R88, R16). -/
def Lfsr.feedback (l : Lfsr) : Bool := l.taps.foldl (fun acc i => acc ^^ l.stages.getD i false) false

/-- SEQ and STAGES after one cycle: the feedback appended to SEQ and shifted into the front cell, the last cell
dropped (R88). -/
def Lfsr.shift (l : Lfsr) : Lfsr :=
  { l with seq := l.seq ++ [l.feedback], stages := l.feedback :: l.stages.take (l.n - 1) }

/-- The fingerprint logic at the end of a cycle, k = len(SEQ): capture at k = n with no comparison; at k > n compare the
last n outputs with FP, REPLEN being written only when REP was 0 (R88; 90_conflicts.md C2). -/
def Lfsr.detect (l : Lfsr) : Lfsr :=
  let k := l.seq.length
  if k = l.n then { l with fp := l.seq.take l.n, fpv := true }
  else if k > l.n ∧ l.seq.drop (k - l.n) = l.fp then
    { l with rep := true, replen := if l.rep then l.replen else k }
  else l

/-- One cycle (R88). -/
def Lfsr.cycle (l : Lfsr) : Lfsr := l.shift.detect

/-! ### LCFG -/

/-- The checks of LCFG after InvalidUnit, in order, and the registers of the configured instance (R91). FP and REPLEN
are not written by LCFG: they keep what `old` holds, unread while FPV = 0 and REP = 0. `u` is the instance's number. -/
def configure (nmax u : Nat) (old : Lfsr) (n : Nat) (taps : List Word) (fill : Fill) : Except ErrorCode Lfsr :=
  if n = 0 ∨ n > nmax then .error .invalidStageCount
  else if taps.length = 0 then .error .emptyTaps
  else if taps.any (badTap n) then .error .invalidTapIndex
  else
    match fillBits n u old.draws fill with
    | .error e => .error e
    | .ok cells =>
      .ok { old with
        cfg := true, n := n, taps := tapSet n taps, stages := cells, seq := [], fpv := false, rep := false
        rundone := false, runrep := false, lastrun := 0
        draws := countDraw old.draws fill }

/-- LCFG (R91). -/
def execLcfg (u : Fin 16) (ns : Fin 512) (taps : List Word) (fill : Fill) (s : State) :
    Host.Outcome State Fault Refusal :=
  finish s <|
    match s.lfsr? u with
    | none => .error .invalidUnit
    | some old =>
      match configure s.params.nmax u old ns taps fill with
      | .error e => .error e
      | .ok l => .ok (s.setLfsr u l)

/-! ### STEP and RUN -/

/-- The instance a STEP or RUN acts on: InvalidUnit, then NotConfigured (R92, R93). -/
def State.configured (s : State) (u : Nat) : Except ErrorCode Lfsr :=
  match s.lfsr? u with
  | none => .error .invalidUnit
  | some l => if l.cfg = false then .error .notConfigured else .ok l

/-- STEP (R92): one cycle. -/
def execStep (u : Fin 16) (s : State) : Host.Outcome State Fault Refusal :=
  finish s <|
    match s.configured u with
    | .error e => .error e
    | .ok l => .ok (s.setLfsr u l.cycle)

/-- The loop of RUN (R93): cycle while REP = 0 and fewer than `limit` cycles are done, REP being tested before every
cycle. The result is the instance and `e` plus the number of cycles. -/
def Lfsr.runLoop : Nat → Lfsr → Nat → Lfsr × Nat
  | 0, l, e => (l, e)
  | limit + 1, l, e => if l.rep then (l, e) else runLoop limit l.cycle (e + 1)

/-- The end of RUN (R93): LASTRUN, RUNDONE and RUNREP. -/
def Lfsr.endRun (l : Lfsr) (e : Nat) : Lfsr :=
  { l with lastrun := e, rundone := true, runrep := l.rep }

/-- As many cycles as a RUN with no budget can need: n to fill the window with outputs of this run, and 2^n for the
register contents to pass through every value they can take. A loop still running then never ends (DEDUCED from R88,
safe, log 9). On a fresh instance R90 gives the smaller bound 2^n - 1 + n. -/
def Lfsr.repeatBound (l : Lfsr) : Nat := 2 ^ l.n + l.n

/-- RUN (R93). With BE = 0 the limit is unbounded; a loop that never ends has no next state. -/
def execRun (u : Fin 16) (budget : Option Word) (s : State) : Host.Outcome State Fault Refusal :=
  match s.configured u with
  | .error e => finish s (.error e)
  | .ok l =>
    match budget with
    | some w =>
      let (l', e) := l.runLoop w.toNat 0
      finish s (.ok (s.setLfsr u (l'.endRun e)))
    | none =>
      let (l', e) := l.runLoop l.repeatBound 0
      if l'.rep then finish s (.ok (s.setLfsr u (l'.endRun e))) else .fault .runNeverRepeats

end Sys2Proof.Machine
end

