-- ==== Sys2Proof/Machine/Dispatch.lean ====
section
/-! DEFINITION. One arm per command: the call of its meaning. -/

namespace Sys2Proof.Machine

/-- What each command does (the rule column of 30_encoding.md R63). -/
def exec (i : Instr) (s : State) : Host.Outcome State Fault Refusal :=
  match i with
  | .nop => Sys2Proof.Machine.execNop s
  | .addt => Sys2Proof.Machine.execAddt s
  | .adde => Sys2Proof.Machine.execAdde s
  | .and => Sys2Proof.Machine.execAnd s
  | .xor => Sys2Proof.Machine.execXor s
  | .lda chars => Sys2Proof.Machine.execLda chars s
  | .ldb chars => Sys2Proof.Machine.execLdb chars s
  | .lcfg u ns taps fill => Sys2Proof.Machine.execLcfg u ns taps fill s
  | .step u => Sys2Proof.Machine.execStep u s
  | .run u budget => Sys2Proof.Machine.execRun u budget s

end Sys2Proof.Machine
end

