-- ==== Sys2Proof/Machine/Flags.lean ====
section
/-! DEFINITION. The derived registers: STATUS (10_state.md R24), TAPMASK (R27), SEQLEN (R29), PERIOD (R32), LSTATE (R33),
LSTATUS (R35). None of them holds state of its own. -/

namespace Sys2Proof.Machine

/-- One bit at a position of a status word. -/
def statusBit (b : Bool) (p : Nat) : Nat := b.toNat * 2 ^ p

/-- ERRF: 1 exactly when ERR != 0 (R24). -/
def State.errf (s : State) : Bool := s.err != 0#8

/-- STATUS: AV, BV, RV, ERRF in bits 0 to 3; bits 31..4 read as 0 (R24). -/
def State.status (s : State) : Word :=
  BitVec.ofNat 32
    (statusBit s.a.valid 0 + statusBit s.b.valid 1 + statusBit s.r.valid 2 + statusBit s.errf 3)

/-- SEQLEN = len(SEQ) (R29). -/
def Lfsr.seqlen (l : Lfsr) : Nat := l.seq.length

/-- TAPMASK: the N-bit string whose index i is 1 exactly when i is in TAPS (R27). -/
def Lfsr.tapmask (l : Lfsr) : List Bool := (List.range l.n).map fun i => l.taps.contains i

/-- PERIOD = REPLEN - N when REP = 1, else 0 (R32). -/
def Lfsr.period (l : Lfsr) : Nat := if l.rep then l.replen - l.n else 0

/-- LSTATE: 0 Unconfigured, 1 Initialized, 2 Cycling, 3 Repeated (R33). -/
def Lfsr.lstate (l : Lfsr) : Nat :=
  if l.cfg = false then 0
  else if l.rep then 3
  else if l.seqlen = 0 then 1
  else 2

/-- LSTATUS: CFG, FPV, REP, RUNDONE, RUNREP in bits 0 to 4, LSTATE in bits 9..8, every other bit 0 (R35). -/
def Lfsr.lstatus (l : Lfsr) : Word :=
  BitVec.ofNat 32
    (statusBit l.cfg 0 + statusBit l.fpv 1 + statusBit l.rep 2 + statusBit l.rundone 3 + statusBit l.runrep 4
      + l.lstate * 2 ^ 8)

end Sys2Proof.Machine
end

