-- ==== Sys2Proof/Machine/ReadMap.lean ====
section
/-! DEFINITION. The register-read map (30_encoding.md R66) and READ's value (44_interface.md R99). -/

namespace Sys2Proof.Machine

/-- The registers of one LFSR instance a READ can name. -/
inductive LfsrReg where
  | lstatus | n | tapmask | stages | seqlen | seq | fp | replen | period | lastrun
  deriving DecidableEq, Repr

/-- The place of an instance's register above the instance's first id (R66). -/
def LfsrReg.offset : LfsrReg → Nat
  | .lstatus => 0x0
  | .n       => 0x1
  | .tapmask => 0x2
  | .stages  => 0x3
  | .seqlen  => 0x4
  | .seq     => 0x5
  | .fp      => 0x6
  | .replen  => 0x7
  | .period  => 0x8
  | .lastrun => 0x9

/-- The id of a register of instance `u` (R66). R66 gives ids for u < 15 alone; a larger u wraps (DESIGN CHOICE, safe,
log 19: only the assembler can name one). -/
def lfsrId (u : Nat) (f : LfsrReg) : Byte := BitVec.ofNat 8 (0x10 * (u + 1) + f.offset)

/-- The registers a READ can name (R66); `reserved` stands for every id that names none. -/
inductive Reg where
  | status | err | passes | alen | a | blen | b | rlen | r
  | lfsr (u : Nat) (f : LfsrReg)
  | reserved
  deriving DecidableEq, Repr

/-- The low digit of an id above 0x0F (R66). -/
def lfsrRegOf (d : Nat) : Option LfsrReg :=
  match d with
  | 0x0 => some .lstatus
  | 0x1 => some .n
  | 0x2 => some .tapmask
  | 0x3 => some .stages
  | 0x4 => some .seqlen
  | 0x5 => some .seq
  | 0x6 => some .fp
  | 0x7 => some .replen
  | 0x8 => some .period
  | 0x9 => some .lastrun
  | _ => none

/-- The register an id names: 0x00 to 0x0F the arithmetic unit and the global registers, 0x10*(u+1) and on those of
instance u (R40, R66). -/
def regOf (id : Byte) : Reg :=
  let hi := id.toNat / 16
  let lo := id.toNat % 16
  if hi = 0 then
    match lo with
    | 0x0 => .status
    | 0x1 => .err
    | 0x2 => .passes
    | 0x3 => .alen
    | 0x4 => .a
    | 0x5 => .blen
    | 0x6 => .b
    | 0x7 => .rlen
    | 0x8 => .r
    | _ => .reserved
  else
    match lfsrRegOf lo with
    | some f => .lfsr (hi - 1) f
    | none => .reserved

/-- The value `v` is at or above 2^SEQLEN_BITS (R11; log 7). -/
def pastWidth (p : Config.Params) (v : Nat) : Bool :=
  match p.seqlenBits with
  | none => false
  | some w => decide (2 ^ w ≤ v)

/-- The value of a sequence-length counter as a READ of `id` gives it: itself below 2^SEQLEN_BITS, from there on any
value (R11; log 7). -/
def counterRead (p : Config.Params) (id : Byte) (v : Nat) : Nat :=
  if pastWidth p v then Config.freeCount id v else v

/-- REPLEN as a READ gives it: 0 when REP = 0 (R31). -/
def Lfsr.replenRead (p : Config.Params) (u : Nat) (l : Lfsr) : Nat :=
  counterRead p (lfsrId u .replen) (if l.rep then l.replen else 0)

/-- PERIOD as a READ gives it: REPLEN - N of the REPLEN a READ gives, and 0 when REP = 0 (R32). The spec does not name
PERIOD among the values that are any value past the width: that it follows REPLEN there is DEDUCED from R32 (safe, log 7),
and where that REPLEN is below N, no difference being a natural number, it is any value (DESIGN CHOICE, safe, log 7). -/
def Lfsr.periodRead (p : Config.Params) (u : Nat) (l : Lfsr) : Nat :=
  if l.rep = true ∧ pastWidth p l.replen = true then
    if l.replenRead p u < l.n then Config.freeCount (lfsrId u .period) l.replen else l.replenRead p u - l.n
  else l.period

/-- A length register: its value when valid, else 0 (R66). -/
def VecReg.readLen (v : VecReg) : ReadValue := .number (if v.valid then v.vec.len else 0)

/-- A vector register: its string when valid, else the empty string (R66). -/
def VecReg.readBits (v : VecReg) : ReadValue := .bits (if v.valid then v.vec.toBits else [])

/-- The registers of instance `u`: what CFG, FPV or REP says holds no value reads as 0 or empty (R26 to R34). -/
def Lfsr.read (p : Config.Params) (u : Nat) (l : Lfsr) : LfsrReg → ReadValue
  | .lstatus => .word l.lstatus
  | .n       => .number (if l.cfg then l.n else 0)
  | .tapmask => .bits (if l.cfg then l.tapmask else [])
  | .stages  => .bits (if l.cfg then l.stages else [])
  | .seqlen  => .number (counterRead p (lfsrId u .seqlen) (if l.cfg then l.seqlen else 0))
  | .seq     => .bits (if l.cfg then l.seq else [])
  | .fp      => .bits (if l.fpv then l.fp else [])
  | .replen  => .number (l.replenRead p u)
  | .period  => .number (l.periodRead p u)
  | .lastrun => .number (counterRead p (lfsrId u .lastrun) l.lastrun)

/-- READ(id): `value_of(id)` (R99). Every reserved id, and every id of an instance u >= NLFSR, gives the word 0 (R66). -/
def State.readReg (s : State) (id : Byte) : ReadValue :=
  match regOf id with
  | .status => .word s.status
  | .err    => .word (s.err.setWidth 32)
  | .passes => .number s.passes
  | .alen   => s.a.readLen
  | .a      => s.a.readBits
  | .blen   => s.b.readLen
  | .b      => s.b.readBits
  | .rlen   => s.r.readLen
  | .r      => s.r.readBits
  | .lfsr u f =>
    match s.lfsr? u with
    | some l => l.read s.params u f
    | none => .word 0#32
  | .reserved => .word 0#32

end Sys2Proof.Machine
end

