-- ==== Sys2Proof/Machine/Transact.lean ====
section
/-! DEFINITION. One host transaction, performed whole (00_scope.md R7, 20_memory.md R44, 44_interface.md R100). -/

namespace Sys2Proof.Machine

/-- ISSUE decodes the packet and performs the command, an illegal packet raising IllegalCommand (R51, R62, R64); READ
returns a value and writes no register (R99, R45); reset sets every register to its reset value (R115). -/
def transact (t : Transaction) (s : State) : Host.Outcome State Fault Refusal :=
  match t with
  | .issue p =>
    match decode p with
    | .ok i => exec i s
    | .error _ => .next (s.raise .illegalCommand)
  | .read id => .next { s with reply := some (s.readReg id) }
  | .reset => .next s.assertReset

/-- The host presents a transaction to be performed before those still pending. -/
def State.present (s : State) (t : Transaction) : State := { s with pending := t :: s.pending }

/-- The opcode table's word as the next packet of the host. -/
def tableTransaction (nbits w : Nat) : Transaction := .issue (tablePacket nbits w)

end Sys2Proof.Machine
end

