-- ==== Sys2Proof/Machine/Step.lean ====
section
/-! DEFINITION. One step of the machine: the oldest pending transaction is performed, whole (20_memory.md R44, R46). -/

namespace Sys2Proof.Machine

/-- One step. With no transaction pending the block waits for the host and nothing changes (70_reset_and_hazards.md
R116; DEDUCED, safe, log 11). -/
def step (s : State) : Host.Outcome State Fault Refusal :=
  match s.pending with
  | [] => .next s
  | t :: rest => transact t { s with pending := rest }

/-- `s` with the host presenting, as its next transaction, the packet whose bits are `w`. The block fetches no
instruction (R17): this is how a command reaches it (log 3, log 14). -/
def State.withFetchWord (s : State) (nbits w : Nat) : State := s.present (tableTransaction nbits w)

end Sys2Proof.Machine
end

