-- ==== Sys2Proof/Machine/Assembler.lean ====
section
/-! DEFINITION. The assembler syntax of 30_encoding.md R67: a line as a term, its spelling, and the transaction it
stands for. -/

namespace Sys2Proof.Machine

/-- The fill operand of an LCFG line (R67). -/
inductive AsmFill where
  | allOnes
  | random
  | custom (chars : List Char)
  deriving DecidableEq, Repr

/-- A line of assembler text (R67). R67 puts no bound on <u> and <n>. A line is a term only with a unit below 16 and a stage
count below 512, the values U (4 bits) and NS (9 bits) can hold (R55 to R57); a command line beyond them has no term
(DESIGN CHOICE, safe, log 19). -/
inductive Asm where
  | nop | addt | adde | and | xor
  | lda (chars : List Char)
  | ldb (chars : List Char)
  | lcfg (u : Fin 16) (n : Fin 512) (taps : List Int) (fill : AsmFill)
  | step (u : Fin 16)
  | run (u : Fin 16) (budget : Option Nat)
  | read (reg : Reg)
  deriving DecidableEq, Repr

/-- "each is encoded as its character code" (R67). The spec gives the codes of the digits and of 'x' (R58, R67) and names no
character set; the code of any character here is its Unicode scalar value, which is its ASCII code where it has one
(PRESUMED, safe, log 21). -/
def charCode (c : Char) : Word := BitVec.ofNat 32 c.toNat

/-- The fill a line names. -/
def AsmFill.fill : AsmFill → Fill
  | .allOnes  => .allOnes
  | .random   => .random
  | .custom c => .custom (c.map charCode)

/-- The id of a register name (R66); for `reserved`, the first reserved id. R67 is silent on a register of an instance
`u` of 15 or more, which no id names: its id wraps to 8 bits (DESIGN CHOICE, safe, log 19). -/
def Reg.id : Reg → Byte
  | .status => 0x00#8
  | .err    => 0x01#8
  | .passes => 0x02#8
  | .alen   => 0x03#8
  | .a      => 0x04#8
  | .blen   => 0x05#8
  | .b      => 0x06#8
  | .rlen   => 0x07#8
  | .r      => 0x08#8
  | .lfsr u f => lfsrId u f
  | .reserved => 0x09#8

/-- The transaction a line stands for (R67): a packet, or a READ. R67 is silent on an operand its field cannot hold. Here a
tap, a budget or a fill's length wraps to its 32-bit word, and the header is the sum of its fields as `encode` builds it, so
a count above 511 characters or 255 taps runs into the bits above it (DESIGN CHOICE, safe, log 19). -/
def Asm.transaction : Asm → Transaction
  | .nop  => .issue (encode .nop)
  | .addt => .issue (encode .addt)
  | .adde => .issue (encode .adde)
  | .and  => .issue (encode .and)
  | .xor  => .issue (encode .xor)
  | .lda c => .issue (encode (.lda (c.map charCode)))
  | .ldb c => .issue (encode (.ldb (c.map charCode)))
  | .lcfg u n taps fill => .issue (encode (.lcfg u n (taps.map (BitVec.ofInt 32)) fill.fill))
  | .step u => .issue (encode (.step u))
  | .run u budget => .issue (encode (.run u (budget.map (BitVec.ofNat 32))))
  | .read reg => .read reg.id

/-- A quoted string operand. -/
def quoted (c : List Char) : String := "\"" ++ String.ofList c ++ "\""

/-- The spelling of a fill operand (R67). -/
def AsmFill.text : AsmFill → String
  | .allOnes  => "ALLONES"
  | .random   => "RANDOM"
  | .custom c => "CUSTOM " ++ quoted c

/-- The spelling of an instance's register (R66). -/
def LfsrReg.text : LfsrReg → String
  | .lstatus => "LSTATUS"
  | .n       => "N"
  | .tapmask => "TAPMASK"
  | .stages  => "STAGES"
  | .seqlen  => "SEQLEN"
  | .seq     => "SEQ"
  | .fp      => "FP"
  | .replen  => "REPLEN"
  | .period  => "PERIOD"
  | .lastrun => "LASTRUN"

/-- The spelling of a register name, "a register name of rule R66, e.g. READ R, READ SEQLEN[0]" (R67). -/
def Reg.text : Reg → String
  | .status => "STATUS"
  | .err    => "ERR"
  | .passes => "PASSES"
  | .alen   => "ALEN"
  | .a      => "A"
  | .blen   => "BLEN"
  | .b      => "B"
  | .rlen   => "RLEN"
  | .r      => "R"
  | .lfsr u f => f.text ++ "[" ++ toString u ++ "]"
  | .reserved => "reserved"

/-- The spelling of a line: "one command per line, mnemonic first" (R67). -/
def Asm.text : Asm → String
  | .nop  => "NOP"
  | .addt => "ADDT"
  | .adde => "ADDE"
  | .and  => "AND"
  | .xor  => "XOR"
  | .lda c => "LDA " ++ quoted c
  | .ldb c => "LDB " ++ quoted c
  | .lcfg u n taps fill =>
    "LCFG " ++ toString u.val ++ ", " ++ toString n.val ++ ", ["
      ++ String.intercalate ", " (taps.map toString) ++ "], " ++ fill.text
  | .step u => "STEP " ++ toString u.val
  | .run u none => "RUN " ++ toString u.val
  | .run u (some k) => "RUN " ++ toString u.val ++ ", " ++ toString k
  | .read reg => "READ " ++ reg.text

end Sys2Proof.Machine
end

