-- ==== Sys2Proof/Machine/Checksum.lean ====
section
/-! DEFINITION. The checksum pseudo-operations NOT, TWOS, LRC and CSUM (42_checksum.md R83 to R86): host-side functions
that issue commands and read R, stopping at the first command that sets ERR (R105). They have no opcode (R68). -/

namespace Sys2Proof.Machine

/-- What a pseudo-operation gives the host: a bit string, or the code of the first error (R105), each with the state of
the block then; or the way the machine stopped, which none of these commands does. -/
inductive HostResult where
  | value   (v : List Bool) (s : State)
  | failed  (code : Byte) (s : State)
  | stopped (f : Fault)
  | refused (r : Refusal)
  deriving DecidableEq, Repr

/-- Issue one command and go on only if it left ERR = 0 (R105). The command is performed by `exec` with no packet built, so
a load of 512 or more characters, which LEN cannot hold (R54) and whose issue the spec does not describe, is performed as
R97 and R98 say and leaves InvalidLength, LMAX being at most 511 (DESIGN CHOICE, unsafe, log 18). -/
def issueThen (i : Instr) (s : State) (next : State → HostResult) : HostResult :=
  match exec i s with
  | .next t => if t.err = 0#8 then next t else .failed t.err t
  | .fault f => .stopped f
  | .refused r => .refused r

/-- `read(X)` for a vector register: the bit string a READ of its id returns (R66). -/
def State.readString (s : State) (id : Byte) : List Bool :=
  match s.readReg id with
  | .bits b => b
  | _ => []

/-- The character word of a bit (R58). -/
def charWord (b : Bool) : Word := if b then 0x31#32 else 0x30#32

/-- A bit string as the characters of a load. -/
def chars (bs : List Bool) : List Word := bs.map charWord

/-- `1^L` as characters. -/
def ones (len : Nat) : List Word := chars (List.replicate len true)

/-- `0^L` as a bit string. -/
def zeros (len : Nat) : List Bool := List.replicate len false

/-- `0^(L-1)1` as characters. -/
def oneAtEnd (len : Nat) : List Word := chars (zeros (len - 1) ++ [true])

/-- `issue LDA x; issue LDB y; issue i; read(R)`, then go on with the string read. -/
def loadBothThen (i : Instr) (x y : List Word) (s : State) (next : List Bool → State → HostResult) : HostResult :=
  issueThen (.lda x) s fun s1 =>
    issueThen (.ldb y) s1 fun s2 =>
      issueThen i s2 fun s3 => next (s3.readString 0x08#8) s3

/-- NOT x (R83): XOR with 1^L. -/
def pseudoNot (x : List Word) (s : State) : HostResult := loadBothThen .xor x (ones x.length) s .value

/-- TWOS y (R84): ADDE with 0^(N-1)1. -/
def pseudoTwos (y : List Word) (s : State) : HostResult := loadBothThen .adde y (oneAtEnd y.length) s .value

/-- The loop of LRC (R85): add a word by ADDT, then AND with 1^L. -/
def lrcLoop (len : Nat) : List (List Word) → List Bool → State → (List Bool → State → HostResult) → HostResult
  | [], lrc, s, next => next lrc s
  | d :: data, lrc, s, next =>
    loadBothThen .addt (chars lrc) d s fun sum s1 =>
      loadBothThen .and (chars sum) (ones len) s1 fun lrc' s2 => lrcLoop len data lrc' s2 next

/-- LRC (R85): the loop from 0^L, then XOR with 1^L, ADDT with 0^(L-1)1 and AND with 1^L. -/
def pseudoLrc (data : List (List Word)) (len : Nat) (s : State) : HostResult :=
  lrcLoop len data (zeros len) s fun sum s1 =>
    loadBothThen .xor (chars sum) (ones len) s1 fun flipped s2 =>
      loadBothThen .addt (chars flipped) (oneAtEnd len) s2 fun negated s3 =>
        loadBothThen .and (chars negated) (ones len) s3 .value

/-- The loop of CSUM (R86): fold the remaining words by ADDE. -/
def csumLoop : List (List Word) → List Bool → State → HostResult
  | [], c, s => .value c s
  | d :: data, c, s => loadBothThen .adde (chars c) d s fun c' s1 => csumLoop data c' s1

/-- CSUM (R86): EmptyInput on no words, with no command issued; else the end-around fold from the first word. -/
def pseudoCsum (data : List (List Word)) (s : State) : HostResult :=
  match data with
  | [] => .failed ErrorCode.emptyInput.code s
  | d :: rest => issueThen (.lda d) s fun s1 => csumLoop rest (s1.readString 0x04#8) s1

end Sys2Proof.Machine
end

