-- ==== Sys2Proof/Safety.lean ====
section
/-! DEFINITION. What every reachable state satisfies (10_state.md R36 and the ranges of R19 to R34), and the terms the
statements use: an instance just configured, `k` cycles of it, its outputs, and an operation on two BitVectors. -/

namespace Sys2Proof.Machine

/-! ### Histories of an LFSR instance -/

/-- An instance just configured with `n` stages, the given taps and fill (R91). -/
def Lfsr.fresh (n : Nat) (taps : List Nat) (fill : List Bool) : Lfsr :=
  { Lfsr.reset with cfg := true, n := n, taps := taps, stages := fill }

/-- `k` cycles (R88) one after another. -/
def Lfsr.cycles : Nat → Lfsr → Lfsr
  | 0, l => l
  | k + 1, l => (cycles k l).cycle

/-- The output of cycle `j`, counted from 0: the feedback of that cycle (R88). -/
def Lfsr.output (l : Lfsr) (j : Nat) : Bool := (l.cycles j).feedback

/-- The registers that a configuration and its cycles determine: all but the run status (R34) and the count of draws
(log 5), FP only once FPV = 1 and REPLEN only once REP = 1. -/
def Lfsr.history (l : Lfsr) : Lfsr :=
  { l with
    fp := if l.fpv then l.fp else [], replen := if l.rep then l.replen else 0
    rundone := false, runrep := false, lastrun := 0, draws := 0 }

/-- TAPS is a non-empty set of cell indices below N (R27), listed ascending. -/
abbrev tapsOk (n : Nat) (taps : List Nat) : Prop :=
  taps ≠ [] ∧ taps.Pairwise (· < ·) ∧ ∀ i ∈ taps, i < n

/-- A configured instance: the ranges of R26 to R31, the invariants (1) to (3) of R36, and that its history is that of
some fill. -/
structure Lfsr.ConfiguredInv (nmax : Nat) (l : Lfsr) : Prop where
  stageCount : 1 ≤ l.n ∧ l.n ≤ nmax
  taps : tapsOk l.n l.taps
  stagesLength : l.stages.length = l.n
  /-- R36 (1). -/
  fpv : l.fpv = true ↔ l.n ≤ l.seq.length
  /-- R30: the fingerprint is the first n outputs. -/
  fingerprint : l.fpv = true → l.fp = l.seq.take l.n
  /-- R36 (2). -/
  repeated : l.rep = true → l.fpv = true ∧ l.n + 1 ≤ l.replen ∧ l.replen ≤ l.seq.length
  /-- R36 (3). -/
  window : l.n ≤ l.seq.length → ∀ i, i < l.n → l.stages[i]? = l.seq[l.seq.length - 1 - i]?
  /-- R34: RUNREP is the REP of the end of a completed RUN. -/
  runStatus : (l.runrep = true → l.rep = true ∧ l.rundone = true) ∧ l.lastrun ≤ l.seq.length
  /-- The registers are those of `k` cycles from some fill, k = SEQLEN (R29). -/
  replay : ∃ fill : List Bool, fill.length = l.n ∧
    l.history = ((Lfsr.fresh l.n l.taps fill).cycles l.seq.length).history

/-- An instance: every flag 0 until an LCFG succeeds (R25, R115), then the invariants of a configured one. -/
structure Lfsr.Inv (nmax : Nat) (l : Lfsr) : Prop where
  unconfigured : l.cfg = false →
    l.fpv = false ∧ l.rep = false ∧ l.rundone = false ∧ l.runrep = false ∧ l.lastrun = 0
  configured : l.cfg = true → l.ConfiguredInv nmax

/-- A vector register that is valid has a length in [1, LMAX] (R19, R20). -/
abbrev VecReg.InRange (lmax : Nat) (v : VecReg) : Prop := v.valid = true → 1 ≤ v.vec.len ∧ v.vec.len ≤ lmax

/-- The codes ERR can hold: 0 and those of R101 but 3, which no packet raises, and 13 and above, never produced. -/
abbrev errCodeOk (e : Byte) : Prop := e.toNat ≤ 12 ∧ e.toNat ≠ 3

/-- What every reachable state satisfies. -/
structure State.Inv (s : State) : Prop where
  /-- R8, R9. -/
  params : s.params.Ok
  /-- R10. -/
  units : 1 ≤ s.lfsrs.length ∧ s.lfsrs.length ≤ 15
  a : s.a.InRange s.params.lmax
  b : s.b.InRange s.params.lmax
  r : s.r.InRange s.params.lmax
  /-- R21: 0, 1 or 2, and 0 until an arithmetic command has succeeded. -/
  passes : s.passes ≤ 2 ∧ (s.r.valid = false → s.passes = 0)
  /-- R101. -/
  err : errCodeOk s.err
  lfsrs : ∀ l ∈ s.lfsrs, l.Inv s.params.nmax

/-! ### Which unit a command belongs to (R2, R47) -/

/-- The LFSR instance a command names; `none` for the commands of the arithmetic unit and NOP. -/
def unitOf : Instr → Option (Fin 16)
  | .nop => none
  | .addt => none
  | .adde => none
  | .and => none
  | .xor => none
  | .lda _ => none
  | .ldb _ => none
  | .lcfg u _ _ _ => some u
  | .step u => some u
  | .run u _ => some u

/-- The errors a command can raise, by the column "raised by" of R101. -/
def errorsOf : Instr → List ErrorCode
  | .nop => []
  | .addt => [.noOperand, .lengthMismatch]
  | .adde => [.noOperand, .lengthMismatch]
  | .and => [.noOperand, .lengthMismatch]
  | .xor => [.noOperand, .lengthMismatch]
  | .lda _ => [.invalidLength, .invalidDigit]
  | .ldb _ => [.invalidLength, .invalidDigit]
  | .lcfg _ _ _ .allOnes => [.invalidUnit, .invalidStageCount, .emptyTaps, .invalidTapIndex]
  | .lcfg _ _ _ .random => [.invalidUnit, .invalidStageCount, .emptyTaps, .invalidTapIndex]
  | .lcfg _ _ _ (.custom _) =>
    [.invalidUnit, .invalidStageCount, .emptyTaps, .invalidTapIndex, .fillTooShort, .invalidDigit]
  | .step _ => [.invalidUnit, .notConfigured]
  | .run _ _ => [.invalidUnit, .notConfigured]

/-- The four commands that read both operands (R69, R73). -/
def arithmeticCommands : List Instr := [.addt, .adde, .and, .xor]

/-! ### Operations on BitVectors -/

/-- The state `s` with A and B holding the given BitVectors. -/
def State.withOperands (s : State) (x y : BitString) : State := (s.loadA x).loadB y

/-- What R holds after a command on the operands `x` and `y`; `x` if the command does not end in a next state. -/
def resultOf (i : Instr) (x y : BitString) (s : State) : BitString :=
  match exec i (s.withOperands x y) with
  | .next t => t.r.vec
  | _ => x

/-- `1^L` and NOT of a BitVector (R13, R81). -/
def BitString.ones (len : Nat) : BitString := BitString.ofNat len (2 ^ len - 1)

/-- Every bit flipped (R81). -/
def BitString.flip (v : BitString) : BitString := BitString.ofNat v.len (2 ^ v.len - 1 - v.val)

/-- The string of `len` character words read as bits: every character is a digit. -/
def digitsOk (cs : List Word) : Prop := ∀ c ∈ cs, c = 0x30#32 ∨ c = 0x31#32

/-- The value of a string of character words by the sum R97 gives: digit(P[k]) has the weight 2^(LEN-1-k). -/
def charsValue (cs : List Word) : Nat :=
  ((List.range cs.length).map fun k => (if cs[k]? = some 0x31#32 then 1 else 0) * 2 ^ (cs.length - 1 - k)).sum

end Sys2Proof.Machine
end

