-- ==== Sys2Proof/Certificates/Slice0/Obligations.lean ====
section
/-! DEFINITION. The statements for the provers. Each is named for what it states; the rule of spec/ it comes from stands in
its docstring and in OBLIGATIONS.json. `val`, `toBits` and `ofNat` are R14's; L is a length. -/

open Sys2Proof Sys2Proof.Machine

/-! ### Encoding -/

/-- Decoding the packet of a command the encoding can express gives that command back, every operand at every value. -/
def Obligations.DecodeOfEncode : Prop :=
  ∀ i : Instr, i.wf = true → decode (encode i) = .ok i

/-- Every packet the decoder accepts is the packet of the command it names, which fits the encoding: each accepted
packet has one meaning and no bit of it is ignored. -/
def Obligations.EncodeOfDecode : Prop :=
  ∀ (p : Packet) (i : Instr), decode p = .ok i → i.wf = true ∧ encode i = p

/-- The worked encodings of R67, written out as words, decode to their commands. -/
def Obligations.WorkedEncodingsDecode : Prop :=
  decode ⟨0x10000004#32, [0x30#32, 0x31#32, 0x30#32, 0x31#32]⟩ = .ok (.lda [0x30#32, 0x31#32, 0x30#32, 0x31#32]) ∧
  decode ⟨0x20001008#32, [8#32, 6#32, 5#32, 4#32]⟩ = .ok (.lcfg 0 8 [8#32, 6#32, 5#32, 4#32] .allOnes) ∧
  decode ⟨0x20080804#32, [4#32, 3#32, 4#32, 0x31#32, 0x30#32, 0x30#32, 0x31#32]⟩ =
    .ok (.lcfg 0 4 [4#32, 3#32] (.custom [0x31#32, 0x30#32, 0x30#32, 0x31#32])) ∧
  decode ⟨0x21000000#32, []⟩ = .ok (.step 0) ∧
  decode ⟨0x22000000#32, []⟩ = .ok (.run 0 none) ∧
  decode ⟨0x22000001#32, [0x64#32]⟩ = .ok (.run 0 (some 100#32))

/-- R62 and R64: a packet is a command exactly when its header selects a row of the opcode map, it is no LCFG with
FPOL = 0b11, and its payload has the length R61 expects (P[TC] of a payload too short to hold it counts as 0, and the
length then disagrees). -/
def Obligations.LegalPacketsAreTheOpcodeMaps : Prop :=
  ∀ p : Packet, (∃ i, decode p = .ok i) ↔
    (∃ row ∈ opcodeMap, row.selects p.header = true) ∧
    ¬ (bits p.header 31 24 = 0x20 ∧ bits p.header 19 18 = 3) ∧
    p.payload.length = expectedPayload p.header fun k => p.payload.getD k 0#32

/-- R63: the header of every command selects exactly one row of the opcode map, the one with its mnemonic. -/
def Obligations.HeaderSelectsOneRow : Prop :=
  ∀ (p : Packet) (i : Instr), decode p = .ok i →
    ∃ row ∈ opcodeMap, row.mnemonic = i.mnemonic ∧
      ∀ other ∈ opcodeMap, other.selects p.header = true ↔ other = row

/-- R64: an illegal packet is answered with IllegalCommand and changes no state except ERR (the transaction leaves the
host's queue). -/
def Obligations.IllegalPacketOnlyWritesErr : Prop :=
  ∀ (s : State) (p : Packet) (why : Reject) (rest : List Transaction),
    s.pending = .issue p :: rest → decode p = .error why → step s = .next { s with pending := rest, err := 11#8 }

/-- R42: each word of a packet is sent least-significant byte first, and the bytes give back the packet. The header going
first is the model's (log 13). -/
def Obligations.ByteStreamIsLeastSignificantFirst : Prop :=
  ∀ (h : Word) (payload : List Word),
    Packet.ofBytes (Packet.toBytes ⟨h, payload⟩) = some ⟨h, payload⟩ ∧
    decodeBytes (Packet.toBytes ⟨h, payload⟩) = decode ⟨h, payload⟩ ∧
    ∀ (k : Nat) (w : Word), (h :: payload)[k]? = some w → ∀ j, j < 4 →
      (Packet.toBytes ⟨h, payload⟩)[4 * k + j]? = some (w.extractLsb' (8 * j) 8)

/-! ### Steps -/

/-- A step performs the command of the oldest pending packet: it is `exec` of the decoded command, the transaction taken
off the queue. -/
def Obligations.StepPerformsDecodedCommand : Prop :=
  ∀ (s : State) (p : Packet) (i : Instr) (rest : List Transaction),
    s.pending = .issue p :: rest → decode p = .ok i → step s = exec i { s with pending := rest }

/-- R99, R45: a READ gives the host the value of the register and writes no register, so a second READ gives the same. -/
def Obligations.ReadWritesNoRegister : Prop :=
  ∀ (s : State) (id : Byte) (rest : List Transaction), s.pending = .read id :: rest →
    ∃ t, step s = .next t ∧ t = { s with pending := rest, reply := some (s.readReg id) } ∧
      ∀ other, t.readReg other = s.readReg other

/-- R115: asserting reset clears AV, BV, RV, PASSES, ERR and, of every instance, CFG, FPV, REP, RUNDONE, RUNREP and
LASTRUN, whatever the state was. That the parameters, the number of instances and the rest of the host's queue stay is
not R115's but the model's choice (log 12). -/
def Obligations.ResetTransactionClears : Prop :=
  ∀ (s : State) (rest : List Transaction), s.pending = .reset :: rest →
    ∃ t, step s = .next t ∧
      t.a.valid = false ∧ t.b.valid = false ∧ t.r.valid = false ∧ t.passes = 0 ∧ t.err = 0#8 ∧
      t.lfsrs.length = s.lfsrs.length ∧
      (∀ l ∈ t.lfsrs, l.cfg = false ∧ l.fpv = false ∧ l.rep = false ∧ l.rundone = false ∧ l.runrep = false ∧
        l.lastrun = 0) ∧
      t.params = s.params ∧ t.pending = rest

/-- R115, R24, R35 and the table of 10_state.md: what holds right after reset, for a block of any parameters. -/
def Obligations.ResetStateValues : Prop :=
  ∀ (p : Config.Params) (nlfsr : Nat),
    let s := State.resetWith p nlfsr
    s.a.valid = false ∧ s.b.valid = false ∧ s.r.valid = false ∧ s.passes = 0 ∧ s.err = 0#8 ∧ s.status = 0#32 ∧
    s.lfsrs.length = nlfsr ∧
    ∀ l ∈ s.lfsrs, l.cfg = false ∧ l.fpv = false ∧ l.rep = false ∧ l.rundone = false ∧ l.runrep = false ∧
      l.lastrun = 0 ∧ l.lstate = 0 ∧ l.lstatus = 0#32

/-- With no transaction presented the block waits (R116); that waiting is a step that changes nothing is the model's
(log 11). -/
def Obligations.WaitsForTheHost : Prop :=
  ∀ s : State, s.pending = [] → step s = .next s

/-! ### The whole machine -/

/-- R102: an ISSUE that leaves ERR other than 0 wrote ERR <- the code of an error and nothing else, for every packet and
every state (the transaction leaves the host's queue). -/
def Obligations.ErrorWritesOnlyErr : Prop :=
  ∀ (s t : State) (p : Packet) (rest : List Transaction), s.pending = .issue p :: rest →
    step s = .next t → t.err ≠ 0#8 → ∃ e : ErrorCode, t = { s with pending := rest, err := e.code }

/-- R101: what ERR holds after a command is 0 or the code of an error the table lists for that command. -/
def Obligations.OnlyListedErrorsAreRaised : Prop :=
  ∀ (i : Instr) (s t : State), exec i s = .next t → t.err = 0#8 ∨ ∃ e ∈ errorsOf i, t.err = e.code

/-- R103: ERR is not sticky: what a command does, and the code it leaves, do not depend on the code ERR held. -/
def Obligations.ErrIsOverwritten : Prop :=
  ∀ (i : Instr) (s : State) (old : Byte), exec i { s with err := old } = exec i s

/-- Every command ends in a next state, but a RUN with no budget on a configured instance may end in the model's one fault,
`runNeverRepeats`, and no command is refused. The fault is the model's, not the spec's (log 9). -/
def Obligations.CommandsComplete : Prop :=
  ∀ (i : Instr) (s : State), (∃ t, exec i s = .next t) ∨
    (∃ u l, i = .run u none ∧ s.lfsrs[u.val]? = some l ∧ l.cfg = true ∧ exec i s = .fault .runNeverRepeats)

/-- Where the machine stops, in the model's own fault (log 9), the loop of R93 never ends: no number of cycles sets REP (for an instance whose STAGES holds N
bits, as R28 says it does). -/
def Obligations.FaultMeansNoRepetitionEver : Prop :=
  ∀ (s : State) (u : Fin 16) (l : Lfsr), s.lfsrs[u.val]? = some l → 1 ≤ l.n → l.stages.length = l.n →
    exec (.run u none) s = .fault .runNeverRepeats → ∀ k, (l.cycles k).rep = false

/-- R47: a command of the arithmetic unit leaves every LFSR instance alone; a command on instance u leaves A, B, R,
PASSES and every other instance alone. None changes the parameters, the host's queue or the latest reply. -/
def Obligations.UnitsAreIsolated : Prop :=
  ∀ (i : Instr) (s t : State), exec i s = .next t →
    t.params = s.params ∧ t.pending = s.pending ∧ t.reply = s.reply ∧ t.lfsrs.length = s.lfsrs.length ∧
    (unitOf i = none → t.lfsrs = s.lfsrs) ∧
    ∀ u, unitOf i = some u →
      t.a = s.a ∧ t.b = s.b ∧ t.r = s.r ∧ t.passes = s.passes ∧ ∀ v, v ≠ u.val → t.lfsrs[v]? = s.lfsrs[v]?

/-- R47: an arithmetic and an LFSR command, or two commands on different instances, leave the same values in every
register but ERR whichever runs first, two Random fills on different instances among them. -/
def Obligations.IndependentCommandsCommute : Prop :=
  ∀ (i j : Instr) (s s1 t : State), unitOf i ≠ unitOf j → exec i s = .next s1 → exec j s1 = .next t →
    ∃ s2 t', exec j s = .next s2 ∧ exec i s2 = .next t' ∧ { t with err := 0#8 } = { t' with err := 0#8 }

/-- R19 to R21, R25: A is written by LDA alone and B by LDB alone, R and PASSES by the four arithmetic commands alone;
those three registers are valid once written, and CFG is never cleared by a command. -/
def Obligations.WhoWritesWhat : Prop :=
  ∀ (i : Instr) (s t : State), exec i s = .next t →
    (t.a ≠ s.a → t.a.valid = true ∧ ∃ cs, i = .lda cs) ∧
    (t.b ≠ s.b → t.b.valid = true ∧ ∃ cs, i = .ldb cs) ∧
    (t.r ≠ s.r ∨ t.passes ≠ s.passes → t.r.valid = true ∧ i ∈ arithmeticCommands) ∧
    ∀ (u : Nat) (l l' : Lfsr), s.lfsrs[u]? = some l → t.lfsrs[u]? = some l' → l.cfg = true → l'.cfg = true

/-! ### The arithmetic unit -/

/-- R69, R73, R104: NoOperand when A or B holds no value, then LengthMismatch when the lengths differ; nothing but ERR is
written. -/
def Obligations.ArithmeticErrors : Prop :=
  ∀ i ∈ arithmeticCommands, ∀ s : State,
    (s.a.valid = false ∨ s.b.valid = false → exec i s = .next { s with err := 9#8 }) ∧
    (s.a.valid = true → s.b.valid = true → s.a.vec.len ≠ s.b.vec.len → exec i s = .next { s with err := 1#8 })

/-- R72: a pass gives r and the carry-out c[L] with c[L] * 2^L + r = x + y, for L-bit x and y. -/
def Obligations.PassAddsExactly : Prop :=
  ∀ x y len : Nat, x < 2 ^ len → y < 2 ^ len →
    (pass x y len).1 = (x + y) % 2 ^ len ∧ (pass x y len).2 = (x + y) / 2 ^ len ∧
    (pass x y len).2 * 2 ^ len + (pass x y len).1 = x + y

/-- R74, R77: ADDT completes on valid operands of one length: R is the sum modulo 2^L, PASSES is 1, ERR is 0, and nothing
else is written. -/
def Obligations.AddtAddsModulo : Prop :=
  ∀ s : State, s.a.valid = true → s.b.valid = true → s.a.vec.len = s.b.vec.len →
    ∃ v, exec .addt s = .next { s with r := ⟨true, v⟩, passes := 1, err := 0#8 } ∧ v.len = s.a.vec.len ∧
      v.val = (s.a.vec.val + s.b.vec.val) % 2 ^ s.a.vec.len

/-- R75, R78: ADDE completes on valid operands of one length: R is the end-around sum in both of R78's forms with its
consequences, PASSES is 1 or 2 (R79), ERR is 0, and nothing else is written. -/
def Obligations.AddeClosedForm : Prop :=
  ∀ s : State, s.a.valid = true → s.b.valid = true → s.a.vec.len = s.b.vec.len → 1 ≤ s.a.vec.len →
    let sum := s.a.vec.val + s.b.vec.val
    let m := 2 ^ s.a.vec.len - 1
    sum ≤ 2 ^ (s.a.vec.len + 1) - 2 ∧
    ∃ v, exec .adde s =
        .next { s with r := ⟨true, v⟩, passes := if sum < 2 ^ s.a.vec.len then 1 else 2, err := 0#8 } ∧
      v.len = s.a.vec.len ∧
      (sum < 2 ^ s.a.vec.len → v.val = sum) ∧
      (2 ^ s.a.vec.len ≤ sum → v.val = sum - 2 ^ s.a.vec.len + 1) ∧
      (sum = 0 → v.val = 0) ∧ (1 ≤ sum → v.val = (sum - 1) % m + 1) ∧
      (v.val = 0 ↔ s.a.vec.val = 0 ∧ s.b.vec.val = 0) ∧
      (v.val ≠ 0 → 1 ≤ v.val ∧ v.val ≤ 2 ^ s.a.vec.len - 1 ∧ v.val % m = sum % m) ∧
      0 % m = 0 ∧ (BitString.ones s.a.vec.len).val % m = 0 ∧
      (sum ≠ 0 → sum % m = 0 → v = BitString.ones s.a.vec.len)

/-- R79: the first pass of ADDE wraps exactly when the sum reaches 2^L, the truncated result is then at most 2^L - 2, the
second pass cannot carry out, and PASSES is 1 or 2 accordingly. -/
def Obligations.AddePassesAndTermination : Prop :=
  ∀ s : State, s.a.valid = true → s.b.valid = true → s.a.vec.len = s.b.vec.len →
    let len := s.a.vec.len
    let sum := s.a.vec.val + s.b.vec.val
    let first := pass s.a.vec.val s.b.vec.val len
    (first.2 = 1 ↔ 2 ^ len ≤ sum) ∧
    (first.2 = 1 → first.1 = sum - 2 ^ len ∧ first.1 ≤ 2 ^ len - 2 ∧ (pass first.1 first.2 len).2 = 0) ∧
    ∃ t, exec .adde s = .next t ∧ (sum < 2 ^ len → t.passes = 1) ∧ (2 ^ len ≤ sum → t.passes = 2)

/-- R70: AND completes on valid operands of one length: bit p of R is 1 exactly when it is in both, PASSES is 0, ERR is 0,
and nothing else is written. -/
def Obligations.AndIsBitwise : Prop :=
  ∀ s : State, s.a.valid = true → s.b.valid = true → s.a.vec.len = s.b.vec.len →
    ∃ v, exec .and s = .next { s with r := ⟨true, v⟩, passes := 0, err := 0#8 } ∧ v.len = s.a.vec.len ∧
      ∀ p, v.val.testBit p = (s.a.vec.val.testBit p && s.b.vec.val.testBit p)

/-- R71: XOR completes on valid operands of one length: bit p of R is 1 exactly when the operands' bits differ, PASSES is
0, ERR is 0, and nothing else is written. -/
def Obligations.XorIsBitwise : Prop :=
  ∀ s : State, s.a.valid = true → s.b.valid = true → s.a.vec.len = s.b.vec.len →
    ∃ v, exec .xor s = .next { s with r := ⟨true, v⟩, passes := 0, err := 0#8 } ∧ v.len = s.a.vec.len ∧
      ∀ p, v.val.testBit p = (s.a.vec.val.testBit p ^^ s.b.vec.val.testBit p)

/-- R80: ADDT and ADDE are commutative and associative as operations on L-bit vectors. -/
def Obligations.AddersCommuteAndAssociate : Prop :=
  ∀ i ∈ [Instr.addt, Instr.adde], ∀ (s : State) (x y z : BitString), x.len = y.len → y.len = z.len →
    resultOf i x y s = resultOf i y x s ∧
    resultOf i (resultOf i x y s) z s = resultOf i x (resultOf i y z s) s

/-- R81: the identities of the checksum pseudo-operations. -/
def Obligations.AdderIdentities : Prop :=
  ∀ (s : State) (x : BitString), 1 ≤ x.len →
    resultOf .adde x (BitString.ofNat x.len 0) s = x ∧
    (∃ t, exec .adde (s.withOperands x x.flip) = .next t ∧ t.r.vec = BitString.ones x.len ∧ t.passes = 1) ∧
    (x.val ≠ 0 → resultOf .adde (BitString.ones x.len) x s = x) ∧
    resultOf .adde (BitString.ones x.len) (BitString.ofNat x.len 0) s = BitString.ones x.len ∧
    resultOf .addt x x.flip s = BitString.ones x.len ∧
    (resultOf .addt x.flip (BitString.ofNat x.len 1) s).val = (2 ^ x.len - x.val) % 2 ^ x.len

/-- R82: with the same value in A and B, ADDT doubles modulo 2^L and ADDE rotates left by one bit position: the string
read back is the operand's with its first bit moved to the end. -/
def Obligations.SameOperandTwice : Prop :=
  ∀ (s : State) (x : BitString), 1 ≤ x.len →
    (resultOf .addt x x s).val = 2 * x.val % 2 ^ x.len ∧
    (x.val < 2 ^ (x.len - 1) → (resultOf .adde x x s).val = 2 * x.val) ∧
    (2 ^ (x.len - 1) ≤ x.val → (resultOf .adde x x s).val = 2 * x.val - 2 ^ x.len + 1) ∧
    (resultOf .adde x x s).toBits = x.toBits.rotateLeft 1

/-! ### The host interface -/

/-- R96: NOP completes in every state, writing ERR <- 0 (so ERRF reads 0) and nothing else; its packet is the header
0x00000000 with no payload, and no other packet is a NOP. -/
def Obligations.NopOnlyClearsErr : Prop :=
  (∀ s : State, exec .nop s = .next { s with err := 0#8 } ∧ ({ s with err := 0#8 } : State).errf = false) ∧
  ∀ p : Packet, decode p = .ok .nop ↔ p = ⟨0x00000000#32, []⟩

/-- R97: LDA of 1 to LMAX digits completes: A is valid, of that length, its value the sum R97 gives; ERR is 0; nothing else
is written. -/
def Obligations.LdaLoadsTheString : Prop :=
  ∀ (s : State) (cs : List Word), 1 ≤ cs.length → cs.length ≤ s.params.lmax → digitsOk cs →
    ∃ v, exec (.lda cs) s = .next { s with a := ⟨true, v⟩, err := 0#8 } ∧ v.len = cs.length ∧ v.val = charsValue cs

/-- R98: LDB of 1 to LMAX digits completes: B is valid, of that length, its value the sum R98 gives; ERR is 0; nothing else
is written. -/
def Obligations.LdbLoadsTheString : Prop :=
  ∀ (s : State) (cs : List Word), 1 ≤ cs.length → cs.length ≤ s.params.lmax → digitsOk cs →
    ∃ v, exec (.ldb cs) s = .next { s with b := ⟨true, v⟩, err := 0#8 } ∧ v.len = cs.length ∧ v.val = charsValue cs

/-- R97, R98, R104: InvalidLength for 0 or more than LMAX characters, then InvalidDigit for any character that is no digit;
nothing but ERR is written. (A load of 512 or more characters is no packet, and what `exec` does with it is the model's
choice, log 18.) -/
def Obligations.LoadErrors : Prop :=
  ∀ (s : State) (cs : List Word), ∀ i ∈ [Instr.lda cs, Instr.ldb cs],
    (cs.length = 0 ∨ s.params.lmax < cs.length → exec i s = .next { s with err := 6#8 }) ∧
    (1 ≤ cs.length → cs.length ≤ s.params.lmax → ¬ digitsOk cs → exec i s = .next { s with err := 2#8 })

/-- R41, R66, R97: after a load of 1 to LMAX digits, a READ of the length gives the number of characters and a READ of
the register gives the same string, leading zeros kept, the first character the most significant. -/
def Obligations.LoadedStringReadsBack : Prop :=
  ∀ (s : State) (cs : List Word), 1 ≤ cs.length → cs.length ≤ s.params.lmax → digitsOk cs →
    (∃ t, exec (.lda cs) s = .next t ∧ t.readReg 0x03#8 = .number cs.length ∧
      t.readReg 0x04#8 = .bits (cs.map fun c => decide (c = 0x31#32))) ∧
    (∃ t, exec (.ldb cs) s = .next t ∧ t.readReg 0x05#8 = .number cs.length ∧
      t.readReg 0x06#8 = .bits (cs.map fun c => decide (c = 0x31#32)))

/-- R24: STATUS is AV, BV, RV and ERRF in bits 0 to 3, ERRF being 1 exactly when ERR is not 0; bits 31..4 read as 0; after
reset it is 0. -/
def Obligations.StatusLayout : Prop :=
  (∀ (p : Config.Params) (nlfsr : Nat), (State.resetWith p nlfsr).status = 0#32) ∧
  ∀ s : State, s.status.getLsbD 0 = s.a.valid ∧ s.status.getLsbD 1 = s.b.valid ∧ s.status.getLsbD 2 = s.r.valid ∧
    (s.status.getLsbD 3 = true ↔ s.err ≠ 0#8) ∧ ∀ p, 4 ≤ p → s.status.getLsbD p = false

/-- R35: LSTATUS is CFG, FPV, REP, RUNDONE, RUNREP in bits 0 to 4, LSTATE in bits 9..8, and 0 elsewhere; after reset, when
every flag is 0, it is 0. -/
def Obligations.LstatusLayout : Prop :=
  (∀ l : Lfsr, l.cfg = false → l.fpv = false → l.rep = false → l.rundone = false → l.runrep = false → l.lstatus = 0#32) ∧
  ∀ l : Lfsr, l.lstatus.getLsbD 0 = l.cfg ∧ l.lstatus.getLsbD 1 = l.fpv ∧ l.lstatus.getLsbD 2 = l.rep ∧
    l.lstatus.getLsbD 3 = l.rundone ∧ l.lstatus.getLsbD 4 = l.runrep ∧
    (l.lstatus.extractLsb' 8 2).toNat = l.lstate ∧
    (∀ p, 5 ≤ p → p ≤ 7 → l.lstatus.getLsbD p = false) ∧ ∀ p, 10 ≤ p → l.lstatus.getLsbD p = false

/-- R66: the ids of the arithmetic unit and the global registers; 0x09 to 0x0F read as the word 0. -/
def Obligations.ArithmeticReadMap : Prop :=
  ∀ s : State,
    s.readReg 0x00#8 = .word s.status ∧ (∃ w, s.readReg 0x01#8 = .word w ∧ w.toNat = s.err.toNat) ∧
    s.readReg 0x02#8 = .number s.passes ∧
    s.readReg 0x03#8 = .number (if s.a.valid then s.a.vec.len else 0) ∧
    s.readReg 0x04#8 = .bits (if s.a.valid then s.a.vec.toBits else []) ∧
    s.readReg 0x05#8 = .number (if s.b.valid then s.b.vec.len else 0) ∧
    s.readReg 0x06#8 = .bits (if s.b.valid then s.b.vec.toBits else []) ∧
    s.readReg 0x07#8 = .number (if s.r.valid then s.r.vec.len else 0) ∧
    s.readReg 0x08#8 = .bits (if s.r.valid then s.r.vec.toBits else []) ∧
    ∀ k, 9 ≤ k → k ≤ 15 → s.readReg (BitVec.ofNat 8 k) = .word 0#32

/-- R66, R26 to R34: the ids of LFSR instance u, b = 0x10 * (u + 1), while its counters are below 2^SEQLEN_BITS (R11);
b + 0xA to b + 0xF, and every id of an instance u >= NLFSR, read as the word 0. -/
def Obligations.LfsrReadMap : Prop :=
  ∀ (s : State) (u : Nat), u < 15 →
    let id := fun d => BitVec.ofNat 8 (0x10 * (u + 1) + d)
    (s.lfsrs.length ≤ u → ∀ d, d < 16 → s.readReg (id d) = .word 0#32) ∧
    ∀ l, s.lfsrs[u]? = some l →
      (∀ w, s.params.seqlenBits = some w → l.seq.length < 2 ^ w ∧ l.replen < 2 ^ w ∧ l.lastrun < 2 ^ w) →
      s.readReg (id 0) = .word l.lstatus ∧
      s.readReg (id 1) = .number (if l.cfg then l.n else 0) ∧
      s.readReg (id 2) = .bits (if l.cfg then (List.range l.n).map fun i => decide (i ∈ l.taps) else []) ∧
      s.readReg (id 3) = .bits (if l.cfg then l.stages else []) ∧
      s.readReg (id 4) = .number (if l.cfg then l.seq.length else 0) ∧
      s.readReg (id 5) = .bits (if l.cfg then l.seq else []) ∧
      s.readReg (id 6) = .bits (if l.fpv then l.fp else []) ∧
      s.readReg (id 7) = .number (if l.rep then l.replen else 0) ∧
      s.readReg (id 8) = .number (if l.rep then l.replen - l.n else 0) ∧
      s.readReg (id 9) = .number l.lastrun ∧
      ∀ d, 10 ≤ d → d < 16 → s.readReg (id d) = .word 0#32

/-! ### The LFSR unit -/

/-- R91: LCFG completes when U, the stage count, the taps and the fill pass its checks: the instance has the stage count,
the set of tap cells, the fill (all ones; the first n characters; n drawn bits, of any value), an empty SEQ, CFG = 1 and
every other flag and LASTRUN 0. Nothing else is written but ERR <- 0. -/
def Obligations.LcfgConfigures : Prop :=
  ∀ (s : State) (u : Fin 16) (ns : Fin 512) (taps : List Word) (fill : Fill),
    u.val < s.lfsrs.length → 1 ≤ ns.val → ns.val ≤ s.params.nmax → taps ≠ [] →
    (∀ w ∈ taps, 1 ≤ w.toInt ∧ w.toInt ≤ ns.val) →
    (∀ cs, fill = .custom cs → ns.val ≤ cs.length ∧ digitsOk cs) →
    ∃ t l, exec (.lcfg u ns taps fill) s = .next t ∧
      t = { s with lfsrs := s.lfsrs.set u.val l, err := 0#8 } ∧
      l.cfg = true ∧ l.n = ns.val ∧ l.taps.Pairwise (· < ·) ∧
      (∀ i : Nat, i ∈ l.taps ↔ ∃ w ∈ taps, w.toInt = (i : Int) + 1) ∧
      l.stages.length = ns.val ∧
      (fill = .allOnes → l.stages = List.replicate ns.val true) ∧
      (∀ cs, fill = .custom cs → l.stages = (cs.take ns.val).map fun c => decide (c = 0x31#32)) ∧
      l.seq = [] ∧ l.fpv = false ∧ l.rep = false ∧ l.rundone = false ∧ l.runrep = false ∧ l.lastrun = 0 ∧ l.lstate = 1

/-- R91, R104: the errors of LCFG in their order, the first that applies being raised: InvalidUnit, InvalidStageCount,
EmptyTaps, InvalidTapIndex, FillTooShort, InvalidDigit. Nothing but ERR is written. -/
def Obligations.LcfgErrorsInOrder : Prop :=
  ∀ (s : State) (u : Fin 16) (ns : Fin 512) (taps : List Word) (fill : Fill),
    let unitOk := u.val < s.lfsrs.length
    let countOk := 1 ≤ ns.val ∧ ns.val ≤ s.params.nmax
    let tapsValid := ∀ w ∈ taps, 1 ≤ w.toInt ∧ w.toInt ≤ ns.val
    let raises := fun code => exec (.lcfg u ns taps fill) s = .next { s with err := code }
    (¬ unitOk → raises 12#8) ∧
    (unitOk → ¬ countOk → raises 7#8) ∧
    (unitOk → countOk → taps = [] → raises 8#8) ∧
    (unitOk → countOk → taps ≠ [] → ¬ tapsValid → raises 5#8) ∧
    ∀ cs, fill = .custom cs → unitOk → countOk → taps ≠ [] → tapsValid →
      (cs.length < ns.val → raises 4#8) ∧ (ns.val ≤ cs.length → ¬ digitsOk cs → raises 2#8)

/-- R88, R92: STEP on a configured instance completes and performs one cycle: the feedback is the parity of the tapped
cells, it is appended to SEQ and shifted into the front cell, the last cell dropping out; on cycle n FP is captured with
no comparison; after it REP is set when the last n outputs equal FP, REPLEN being written only when REP was 0. Every
other register of the instance, and of the block but ERR <- 0, is unchanged. -/
def Obligations.StepPerformsOneCycle : Prop :=
  ∀ (s : State) (u : Fin 16) (l : Lfsr), s.lfsrs[u.val]? = some l → l.cfg = true →
    let fb := decide ((l.taps.filter fun i => l.stages.getD i false).length % 2 = 1)
    let seq := l.seq ++ [fb]
    let k := seq.length
    let shifted := { l with seq := seq, stages := fb :: l.stages.take (l.n - 1) }
    ∃ l', exec (.step u) s = .next { s with lfsrs := s.lfsrs.set u.val l', err := 0#8 } ∧
      (k = l.n → l' = { shifted with fp := seq, fpv := true }) ∧
      (l.n < k → seq.drop (k - l.n) = l.fp → l.rep = false → l' = { shifted with rep := true, replen := k }) ∧
      (l.n < k → seq.drop (k - l.n) = l.fp → l.rep = true → l' = shifted) ∧
      (l.n < k → seq.drop (k - l.n) ≠ l.fp → l' = shifted) ∧
      (k < l.n → l' = shifted)

/-- R92, R93, R104: STEP and RUN raise InvalidUnit when U >= NLFSR, else NotConfigured when CFG = 0; nothing but ERR is
written. -/
def Obligations.StepAndRunErrors : Prop :=
  ∀ (s : State) (u : Fin 16) (budget : Option Word), ∀ i ∈ [Instr.step u, Instr.run u budget],
    (s.lfsrs.length ≤ u.val → exec i s = .next { s with err := 12#8 }) ∧
    (∀ l, s.lfsrs[u.val]? = some l → l.cfg = false → exec i s = .next { s with err := 10#8 })

/-- R93: RUN with a budget completes on every configured instance: it performs e cycles, e at most the budget, REP being 0
before each of them; it ends with REP = 1 or e = BUDGET; LASTRUN = e, RUNDONE = 1, RUNREP = REP, SEQLEN has grown by e.
Nothing else is written but ERR <- 0. -/
def Obligations.RunWithBudget : Prop :=
  ∀ (s : State) (u : Fin 16) (l : Lfsr) (budget : Word), s.lfsrs[u.val]? = some l → l.cfg = true →
    ∃ e, e ≤ budget.toNat ∧
      exec (.run u (some budget)) s =
        .next { s with
          lfsrs := s.lfsrs.set u.val
            { l.cycles e with lastrun := e, rundone := true, runrep := (l.cycles e).rep }
          err := 0#8 } ∧
      (∀ j, j < e → (l.cycles j).rep = false) ∧
      ((l.cycles e).rep = true ∨ e = budget.toNat) ∧
      (l.cycles e).seq.length = l.seq.length + e

/-- R90, R93, R122: in every state that meets the invariant, RUN with no budget completes on a configured instance: it
performs e cycles, at most 2^n - 1 + n, REP being 0 before each of them and 1 at the end. -/
def Obligations.RunWithoutBudgetEndsByRepetition : Prop :=
  ∀ (s : State) (u : Fin 16) (l : Lfsr), s.Inv → s.lfsrs[u.val]? = some l → l.cfg = true →
    ∃ e, e ≤ 2 ^ l.n - 1 + l.n ∧
      exec (.run u none) s =
        .next { s with
          lfsrs := s.lfsrs.set u.val { l.cycles e with lastrun := e, rundone := true, runrep := true }
          err := 0#8 } ∧
      (∀ j, j < e → (l.cycles j).rep = false) ∧ (l.cycles e).rep = true

/-- R89: with the fill's cells before it, every output of a configured instance is the XOR of the outputs at the tap
exponents' distances: cell i at cycle k holds output k - 1 - i, or the fill's cell when there is none yet. -/
def Obligations.OutputRecurrence : Prop :=
  ∀ (n : Nat) (taps : List Nat) (fill : List Bool), tapsOk n taps → fill.length = n →
    let l := Lfsr.fresh n taps fill
    (∀ k, (l.cycles k).seq = (List.range k).map l.output) ∧
    (∀ k i, i < n →
      (l.cycles k).stages[i]? = some (if i < k then l.output (k - 1 - i) else fill.getD (i - k) false)) ∧
    ∀ k, l.output k =
      (taps.map fun i => if i < k then l.output (k - 1 - i) else fill.getD (i - k) false).foldl Bool.xor false

/-- R32, R90: on a freshly configured instance REP is set exactly from cycle P + n on, where P is the least period of the
output sequence, which is purely periodic from its first output; then REPLEN = P + n and PERIOD = P; and P is at most
2^m - 1, m being the largest tap exponent, and is 1 when the fill's cells 0 to m-1 are all zero. -/
def Obligations.PeriodIsTheLeastPeriod : Prop :=
  ∀ (n : Nat) (taps : List Nat) (fill : List Bool), tapsOk n taps → fill.length = n →
    let l := Lfsr.fresh n taps fill
    ∃ p, 1 ≤ p ∧ (∀ j, l.output (j + p) = l.output j) ∧
      (∀ q, 1 ≤ q → (∀ j, l.output (j + q) = l.output j) → p ≤ q) ∧
      (∀ i, i ∈ taps → (∀ i' ∈ taps, i' ≤ i) →
        p ≤ 2 ^ (i + 1) - 1 ∧ ((∀ c, c ≤ i → fill.getD c false = false) → p = 1)) ∧
      ∀ k, ((l.cycles k).rep = true ↔ p + n ≤ k) ∧
        ((l.cycles k).rep = true → (l.cycles k).replen = p + n ∧ (l.cycles k).period = p)

/-- R36 (4), R94 (4): on a configured instance that meets the invariant, STEP and RUN only extend SEQ; FP once captured, REP
once set and REPLEN once written stay; the configuration stays. -/
def Obligations.HistoryOnlyGrows : Prop :=
  ∀ (s t : State) (u : Fin 16) (l : Lfsr) (budget : Option Word), ∀ i ∈ [Instr.step u, Instr.run u budget],
    s.Inv → s.lfsrs[u.val]? = some l → l.cfg = true → exec i s = .next t →
    ∃ l', t.lfsrs[u.val]? = some l' ∧ l.seq <+: l'.seq ∧
      (l.fpv = true → l'.fpv = true ∧ l'.fp = l.fp) ∧ (l.rep = true → l'.rep = true ∧ l'.replen = l.replen) ∧
      l'.cfg = true ∧ l'.n = l.n ∧ l'.taps = l.taps

/-- R33: LSTATE by its conditions, and the source's transitions under STEP: Initialized to Cycling on the first cycle,
Cycling to Cycling or Repeated, Repeated terminal. -/
def Obligations.LstateConditionsAndTransitions : Prop :=
  (∀ l : Lfsr, (l.cfg = false → l.lstate = 0) ∧
    (l.cfg = true → l.seq = [] → l.rep = false → l.lstate = 1) ∧
    (l.cfg = true → l.seq ≠ [] → l.rep = false → l.lstate = 2) ∧
    (l.cfg = true → l.rep = true → l.lstate = 3)) ∧
  ∀ (s : State) (u : Fin 16) (l : Lfsr), s.Inv → s.lfsrs[u.val]? = some l → l.cfg = true →
    ∃ t l', exec (.step u) s = .next t ∧ t.lfsrs[u.val]? = some l' ∧
      (l.lstate = 1 → l'.lstate = 2) ∧ (l.lstate = 2 → l'.lstate = if l'.rep then 3 else 2) ∧ (l.lstate = 3 → l'.lstate = 3)

/-! ### Invariants -/

/-- The state after reset meets the invariant, for every block whose parameters meet R8 to R10. -/
def Obligations.ResetMeetsInvariant : Prop :=
  ∀ (p : Config.Params) (nlfsr : Nat), p.Ok → 1 ≤ nlfsr → nlfsr ≤ 15 → (State.resetWith p nlfsr).Inv

/-- R36 and the ranges of R19 to R34: every step keeps the invariant. -/
def Obligations.StepKeepsInvariant : Prop :=
  ∀ s t : State, s.Inv → step s = .next t → t.Inv

/-- From every state that meets the invariant a step completes, whatever transaction the host has presented: no fault and
no refusal is ever reached. -/
def Obligations.EveryStepCompletes : Prop :=
  ∀ s : State, s.Inv → ∃ t, step s = .next t

/-! ### The checksum pseudo-operations -/

/-- R83: NOT of a string of 1 to LMAX digits gives every bit flipped, so 2^L - 1 - val(x); it fails with InvalidLength or
InvalidDigit from LDA (for 512 or more characters, which no packet holds, by the model's choice, log 18). -/
def Obligations.NotFlipsEveryBit : Prop :=
  ∀ (s : State) (x : List Word),
    (1 ≤ x.length → x.length ≤ s.params.lmax → digitsOk x →
      ∃ y t, pseudoNot x s = .value y t ∧ y = x.map (fun c => decide (c = 0x30#32)) ∧
        bitsValue y = 2 ^ x.length - 1 - charsValue x) ∧
    (x.length = 0 ∨ s.params.lmax < x.length → ∃ t, pseudoNot x s = .failed 6#8 t) ∧
    (1 ≤ x.length → x.length ≤ s.params.lmax → ¬ digitsOk x → ∃ t, pseudoNot x s = .failed 2#8 t)

/-- R84: TWOS of a string of 1 to LMAX digits adds 1 end-around: val(y) + 1 in one pass, but `1^N` gives `0^(N-1)1` in
two; it fails with InvalidLength or InvalidDigit from LDA (for 512 or more characters by the model's choice, log 18). -/
def Obligations.TwosAddsOneEndAround : Prop :=
  ∀ (s : State) (y : List Word),
    (1 ≤ y.length → y.length ≤ s.params.lmax → digitsOk y →
      ∃ z t, pseudoTwos y s = .value z t ∧ z.length = y.length ∧
        (charsValue y ≠ 2 ^ y.length - 1 → bitsValue z = charsValue y + 1 ∧ t.passes = 1) ∧
        (charsValue y = 2 ^ y.length - 1 → z = zeros (y.length - 1) ++ [true] ∧ t.passes = 2)) ∧
    (y.length = 0 ∨ s.params.lmax < y.length → ∃ t, pseudoTwos y s = .failed 6#8 t) ∧
    (1 ≤ y.length → y.length ≤ s.params.lmax → ¬ digitsOk y → ∃ t, pseudoTwos y s = .failed 2#8 t)

/-- R85: LRC of any number of L-bit words is the two's-complement negation of their sum modulo 2^L; 0^L for none. -/
def Obligations.LrcNegatesTheSum : Prop :=
  ∀ (s : State) (data : List (List Word)) (len : Nat), 1 ≤ len → len ≤ s.params.lmax →
    (∀ d ∈ data, d.length = len ∧ digitsOk d) →
    ∃ z t, pseudoLrc data len s = .value z t ∧ z.length = len ∧
      bitsValue z = (2 ^ len - (data.map charsValue).sum % 2 ^ len) % 2 ^ len

/-- R86: CSUM of no words fails with EmptyInput, the block untouched; of L-bit words it is 0 when their sum S is 0 and
((S - 1) mod (2^L - 1)) + 1 otherwise, in whatever order the words come. -/
def Obligations.CsumFoldsEndAround : Prop :=
  ∀ (s : State) (data : List (List Word)) (len : Nat), 1 ≤ len → len ≤ s.params.lmax →
    (∀ d ∈ data, d.length = len ∧ digitsOk d) →
    (data = [] → pseudoCsum data s = .failed 3#8 s) ∧
    (data ≠ [] → ∃ z t, pseudoCsum data s = .value z t ∧ z.length = len ∧
      ((data.map charsValue).sum = 0 → bitsValue z = 0) ∧
      (1 ≤ (data.map charsValue).sum → bitsValue z = ((data.map charsValue).sum - 1) % (2 ^ len - 1) + 1) ∧
      ∀ other, other.Perm data → ∃ t', pseudoCsum other s = .value z t')

/-- R85, R86, R105: LRC and CSUM stop at the first word that no load takes, with InvalidLength or InvalidDigit, be it the
first word of all, or that has another length, with LengthMismatch from the addition (for CSUM, than the first word). For a word of
512 or more characters, which no packet holds, InvalidLength is the model's choice (log 18). -/
def Obligations.ChecksumsStopAtTheFirstError : Prop :=
  ∀ (s : State) (good : List (List Word)) (bad : List Word) (rest : List (List Word)) (len : Nat),
    1 ≤ len → len ≤ s.params.lmax → (∀ d ∈ good, d.length = len ∧ digitsOk d) →
    let lrcStops := fun code => ∃ t, pseudoLrc (good ++ bad :: rest) len s = .failed code t
    let csumStops := fun code => ∃ t, pseudoCsum (good ++ bad :: rest) s = .failed code t
    (bad.length = 0 ∨ s.params.lmax < bad.length → lrcStops 6#8 ∧ csumStops 6#8) ∧
    (1 ≤ bad.length → bad.length ≤ s.params.lmax → ¬ digitsOk bad → lrcStops 2#8 ∧ csumStops 2#8) ∧
    (1 ≤ bad.length → bad.length ≤ s.params.lmax → digitsOk bad → bad.length ≠ len →
      lrcStops 1#8 ∧ (good ≠ [] → csumStops 1#8))

/-- R87: for every L-bit x, ADDE(x, TWOS(NOT x)) = 0^(L-1)1, in two passes, but in one for x = 0^L, so it is not all
zeros (90_conflicts.md C4); the identity that holds is ADDE(x, NOT x) = 1^L. -/
def Obligations.IntegrityCheckGivesOne : Prop :=
  ∀ (s : State) (x : List Word), 1 ≤ x.length → x.length ≤ s.params.lmax → digitsOk x →
    ∃ y z s1 s2 t t', pseudoNot x s = .value y s1 ∧ pseudoTwos (chars y) s1 = .value z s2 ∧
      loadBothThen .adde x (chars z) s2 .value = .value (zeros (x.length - 1) ++ [true]) t ∧
      (charsValue x ≠ 0 → t.passes = 2) ∧ (charsValue x = 0 → t.passes = 1) ∧
      zeros (x.length - 1) ++ [true] ≠ zeros x.length ∧
      loadBothThen .adde x (chars y) s1 .value = .value (List.replicate x.length true) t'

/-! ### PERIOD as a READ gives it -/

/-- R32: PERIOD as a READ gives it is REPLEN as a READ gives it less N when REP = 1, and 0 when REP = 0, at whatever width
the counters have. That PERIOD follows the REPLEN a READ gives also past 2^SEQLEN_BITS is the model's reading (log 7); where
that REPLEN is below N the statement says nothing. -/
def Obligations.PeriodReadFollowsReplenRead : Prop :=
  ∀ (s : State) (u : Nat) (l : Lfsr), u < 15 → s.lfsrs[u]? = some l →
    let id := fun d => BitVec.ofNat 8 (0x10 * (u + 1) + d)
    ∃ r p, s.readReg (id 7) = .number r ∧ s.readReg (id 8) = .number p ∧
      (l.rep = true → l.n ≤ r → p = r - l.n) ∧ (l.rep = false → r = 0 ∧ p = 0)
end

