-- ==== Sys2Proof/Laws/State.lean ====
section
/-! SUPPORT. One lemma per field of State per update, so that no proof unfolds a record update. -/

namespace Sys2Proof.Machine

section
variable (s : State)

/-! ### `raise` -/

@[simp] theorem State.raise_params (e : ErrorCode) : (s.raise e).params = s.params := rfl
@[simp] theorem State.raise_a (e : ErrorCode) : (s.raise e).a = s.a := rfl
@[simp] theorem State.raise_b (e : ErrorCode) : (s.raise e).b = s.b := rfl
@[simp] theorem State.raise_r (e : ErrorCode) : (s.raise e).r = s.r := rfl
@[simp] theorem State.raise_passes (e : ErrorCode) : (s.raise e).passes = s.passes := rfl
@[simp] theorem State.raise_err (e : ErrorCode) : (s.raise e).err = e.code := rfl
@[simp] theorem State.raise_lfsrs (e : ErrorCode) : (s.raise e).lfsrs = s.lfsrs := rfl
@[simp] theorem State.raise_pending (e : ErrorCode) : (s.raise e).pending = s.pending := rfl
@[simp] theorem State.raise_reply (e : ErrorCode) : (s.raise e).reply = s.reply := rfl

/-! ### `succeed` -/

@[simp] theorem State.succeed_params : (s.succeed).params = s.params := rfl
@[simp] theorem State.succeed_a : (s.succeed).a = s.a := rfl
@[simp] theorem State.succeed_b : (s.succeed).b = s.b := rfl
@[simp] theorem State.succeed_r : (s.succeed).r = s.r := rfl
@[simp] theorem State.succeed_passes : (s.succeed).passes = s.passes := rfl
@[simp] theorem State.succeed_err : (s.succeed).err = 0#8 := rfl
@[simp] theorem State.succeed_lfsrs : (s.succeed).lfsrs = s.lfsrs := rfl
@[simp] theorem State.succeed_pending : (s.succeed).pending = s.pending := rfl
@[simp] theorem State.succeed_reply : (s.succeed).reply = s.reply := rfl

/-! ### `loadA` -/

@[simp] theorem State.loadA_params (v : BitString) : (s.loadA v).params = s.params := rfl
@[simp] theorem State.loadA_a (v : BitString) : (s.loadA v).a = { valid := true, vec := v } := rfl
@[simp] theorem State.loadA_b (v : BitString) : (s.loadA v).b = s.b := rfl
@[simp] theorem State.loadA_r (v : BitString) : (s.loadA v).r = s.r := rfl
@[simp] theorem State.loadA_passes (v : BitString) : (s.loadA v).passes = s.passes := rfl
@[simp] theorem State.loadA_err (v : BitString) : (s.loadA v).err = s.err := rfl
@[simp] theorem State.loadA_lfsrs (v : BitString) : (s.loadA v).lfsrs = s.lfsrs := rfl
@[simp] theorem State.loadA_pending (v : BitString) : (s.loadA v).pending = s.pending := rfl
@[simp] theorem State.loadA_reply (v : BitString) : (s.loadA v).reply = s.reply := rfl

/-! ### `loadB` -/

@[simp] theorem State.loadB_params (v : BitString) : (s.loadB v).params = s.params := rfl
@[simp] theorem State.loadB_a (v : BitString) : (s.loadB v).a = s.a := rfl
@[simp] theorem State.loadB_b (v : BitString) : (s.loadB v).b = { valid := true, vec := v } := rfl
@[simp] theorem State.loadB_r (v : BitString) : (s.loadB v).r = s.r := rfl
@[simp] theorem State.loadB_passes (v : BitString) : (s.loadB v).passes = s.passes := rfl
@[simp] theorem State.loadB_err (v : BitString) : (s.loadB v).err = s.err := rfl
@[simp] theorem State.loadB_lfsrs (v : BitString) : (s.loadB v).lfsrs = s.lfsrs := rfl
@[simp] theorem State.loadB_pending (v : BitString) : (s.loadB v).pending = s.pending := rfl
@[simp] theorem State.loadB_reply (v : BitString) : (s.loadB v).reply = s.reply := rfl

/-! ### `setResult` -/

@[simp] theorem State.setResult_params (v : BitString) (k : Nat) : (s.setResult v k).params = s.params := rfl
@[simp] theorem State.setResult_a (v : BitString) (k : Nat) : (s.setResult v k).a = s.a := rfl
@[simp] theorem State.setResult_b (v : BitString) (k : Nat) : (s.setResult v k).b = s.b := rfl
@[simp] theorem State.setResult_r (v : BitString) (k : Nat) : (s.setResult v k).r = { valid := true, vec := v } := rfl
@[simp] theorem State.setResult_passes (v : BitString) (k : Nat) : (s.setResult v k).passes = k := rfl
@[simp] theorem State.setResult_err (v : BitString) (k : Nat) : (s.setResult v k).err = s.err := rfl
@[simp] theorem State.setResult_lfsrs (v : BitString) (k : Nat) : (s.setResult v k).lfsrs = s.lfsrs := rfl
@[simp] theorem State.setResult_pending (v : BitString) (k : Nat) : (s.setResult v k).pending = s.pending := rfl
@[simp] theorem State.setResult_reply (v : BitString) (k : Nat) : (s.setResult v k).reply = s.reply := rfl

/-! ### `setLfsr` -/

@[simp] theorem State.setLfsr_params (u : Nat) (l : Lfsr) : (s.setLfsr u l).params = s.params := rfl
@[simp] theorem State.setLfsr_a (u : Nat) (l : Lfsr) : (s.setLfsr u l).a = s.a := rfl
@[simp] theorem State.setLfsr_b (u : Nat) (l : Lfsr) : (s.setLfsr u l).b = s.b := rfl
@[simp] theorem State.setLfsr_r (u : Nat) (l : Lfsr) : (s.setLfsr u l).r = s.r := rfl
@[simp] theorem State.setLfsr_passes (u : Nat) (l : Lfsr) : (s.setLfsr u l).passes = s.passes := rfl
@[simp] theorem State.setLfsr_err (u : Nat) (l : Lfsr) : (s.setLfsr u l).err = s.err := rfl
@[simp] theorem State.setLfsr_lfsrs (u : Nat) (l : Lfsr) : (s.setLfsr u l).lfsrs = s.lfsrs.set u l := rfl
@[simp] theorem State.setLfsr_pending (u : Nat) (l : Lfsr) : (s.setLfsr u l).pending = s.pending := rfl
@[simp] theorem State.setLfsr_reply (u : Nat) (l : Lfsr) : (s.setLfsr u l).reply = s.reply := rfl

/-! ### `assertReset` -/

@[simp] theorem State.assertReset_params : (s.assertReset).params = s.params := rfl
@[simp] theorem State.assertReset_a : (s.assertReset).a = VecReg.reset := rfl
@[simp] theorem State.assertReset_b : (s.assertReset).b = VecReg.reset := rfl
@[simp] theorem State.assertReset_r : (s.assertReset).r = VecReg.reset := rfl
@[simp] theorem State.assertReset_passes : (s.assertReset).passes = 0 := rfl
@[simp] theorem State.assertReset_err : (s.assertReset).err = 0#8 := rfl
@[simp] theorem State.assertReset_lfsrs : (s.assertReset).lfsrs = s.lfsrs.map Lfsr.assertReset := rfl
@[simp] theorem State.assertReset_pending : (s.assertReset).pending = s.pending := rfl
@[simp] theorem State.assertReset_reply : (s.assertReset).reply = s.reply := rfl

/-! ### `present` -/

@[simp] theorem State.present_params (t : Transaction) : (s.present t).params = s.params := rfl
@[simp] theorem State.present_a (t : Transaction) : (s.present t).a = s.a := rfl
@[simp] theorem State.present_b (t : Transaction) : (s.present t).b = s.b := rfl
@[simp] theorem State.present_r (t : Transaction) : (s.present t).r = s.r := rfl
@[simp] theorem State.present_passes (t : Transaction) : (s.present t).passes = s.passes := rfl
@[simp] theorem State.present_err (t : Transaction) : (s.present t).err = s.err := rfl
@[simp] theorem State.present_lfsrs (t : Transaction) : (s.present t).lfsrs = s.lfsrs := rfl
@[simp] theorem State.present_pending (t : Transaction) : (s.present t).pending = t :: s.pending := rfl
@[simp] theorem State.present_reply (t : Transaction) : (s.present t).reply = s.reply := rfl

/-! ### `Lfsr.assertReset`, and the count of draws -/

@[simp] theorem Lfsr.assertReset_cfg (l : Lfsr) : l.assertReset.cfg = Lfsr.reset.cfg := rfl
@[simp] theorem Lfsr.assertReset_n (l : Lfsr) : l.assertReset.n = Lfsr.reset.n := rfl
@[simp] theorem Lfsr.assertReset_taps (l : Lfsr) : l.assertReset.taps = Lfsr.reset.taps := rfl
@[simp] theorem Lfsr.assertReset_stages (l : Lfsr) : l.assertReset.stages = Lfsr.reset.stages := rfl
@[simp] theorem Lfsr.assertReset_seq (l : Lfsr) : l.assertReset.seq = Lfsr.reset.seq := rfl
@[simp] theorem Lfsr.assertReset_fp (l : Lfsr) : l.assertReset.fp = Lfsr.reset.fp := rfl
@[simp] theorem Lfsr.assertReset_fpv (l : Lfsr) : l.assertReset.fpv = Lfsr.reset.fpv := rfl
@[simp] theorem Lfsr.assertReset_rep (l : Lfsr) : l.assertReset.rep = Lfsr.reset.rep := rfl
@[simp] theorem Lfsr.assertReset_replen (l : Lfsr) : l.assertReset.replen = Lfsr.reset.replen := rfl
@[simp] theorem Lfsr.assertReset_rundone (l : Lfsr) : l.assertReset.rundone = Lfsr.reset.rundone := rfl
@[simp] theorem Lfsr.assertReset_runrep (l : Lfsr) : l.assertReset.runrep = Lfsr.reset.runrep := rfl
@[simp] theorem Lfsr.assertReset_lastrun (l : Lfsr) : l.assertReset.lastrun = Lfsr.reset.lastrun := rfl
@[simp] theorem Lfsr.assertReset_draws (l : Lfsr) : l.assertReset.draws = l.draws := rfl

@[simp] theorem countDraw_allOnes (k : Nat) : countDraw k .allOnes = k := rfl
@[simp] theorem countDraw_random (k : Nat) : countDraw k .random = k + 1 := rfl
@[simp] theorem countDraw_custom (k : Nat) (cs : List Word) : countDraw k (.custom cs) = k := rfl

@[simp] theorem State.lfsr?_eq (u : Nat) : s.lfsr? u = s.lfsrs[u]? := rfl

@[simp] theorem State.nlfsr_eq : s.nlfsr = s.lfsrs.length := rfl

end

end Sys2Proof.Machine
end

