-- ==== Sys2Proof/Laws/Ops.lean ====
section
/-! SUPPORT. What each shared operation can do, said once: the end of a command, the operand checks, loads, fills, the
configuration of an instance and the selection of one. -/

namespace Sys2Proof.Machine

/-! ### The end of a command -/

@[simp] theorem finish_error (s : State) (e : ErrorCode) : finish s (.error e) = .next (s.raise e) := rfl

@[simp] theorem finish_ok (s t : State) : finish s (.ok t) = .next t.succeed := rfl

/-- A command that ends by `finish` either raised an error, writing ERR alone, or succeeded with its writes. -/
theorem finish_next {s t : State} {r : Except ErrorCode State} (h : finish s r = .next t) :
    (∃ e, r = .error e ∧ t = s.raise e) ∨ (∃ w, r = .ok w ∧ t = w.succeed) := by
  cases r with
  | error e => exact .inl ⟨e, rfl, by simpa using h.symm⟩
  | ok w => exact .inr ⟨w, rfl, by simpa using h.symm⟩

/-- A command that ends by `finish` completes. -/
theorem finish_completes (s : State) (r : Except ErrorCode State) : ∃ t, finish s r = .next t := by
  cases r <;> exact ⟨_, rfl⟩

/-- No error has the code 0. -/
theorem ErrorCode.code_ne_zero (e : ErrorCode) : e.code ≠ 0#8 := by cases e <;> decide

theorem ErrorCode.code_injective {e e' : ErrorCode} (h : e.code = e'.code) : e = e' := by
  cases e <;> cases e' <;> first | rfl | (exact absurd h (by decide))

/-! ### The operand checks (R69, R73) -/

theorem operands_noOperand {s : State} (h : s.a.valid = false ∨ s.b.valid = false) :
    s.operands = .error .noOperand := by
  simp only [State.operands, if_pos h]

theorem operands_lengthMismatch {s : State} (ha : s.a.valid = true) (hb : s.b.valid = true)
    (h : s.a.vec.len ≠ s.b.vec.len) : s.operands = .error .lengthMismatch := by
  simp [State.operands, ha, hb, h]

theorem operands_ok {s : State} (ha : s.a.valid = true) (hb : s.b.valid = true) (h : s.a.vec.len = s.b.vec.len) :
    s.operands = .ok (s.a.vec, s.b.vec) := by
  simp [State.operands, ha, hb, h]

/-- Every outcome of an arithmetic command: one of the two errors, or R and PASSES written from the operation. -/
theorem arithmetic_cases (op : Nat → Nat → Nat → Nat × Nat) (s : State) :
    ((s.a.valid = false ∨ s.b.valid = false) ∧ arithmetic op s = .next (s.raise .noOperand)) ∨
    (s.a.valid = true ∧ s.b.valid = true ∧ s.a.vec.len ≠ s.b.vec.len ∧
      arithmetic op s = .next (s.raise .lengthMismatch)) ∨
    (s.a.valid = true ∧ s.b.valid = true ∧ s.a.vec.len = s.b.vec.len ∧
      arithmetic op s =
        .next (s.setResult (BitString.ofNat s.a.vec.len (op s.a.vec.len s.a.vec.val s.b.vec.val).1)
          (op s.a.vec.len s.a.vec.val s.b.vec.val).2).succeed) := by
  by_cases hv : s.a.valid = false ∨ s.b.valid = false
  · exact .inl ⟨hv, by simp [arithmetic, operands_noOperand hv]⟩
  · obtain ⟨ha, hb⟩ : s.a.valid = true ∧ s.b.valid = true := by
      constructor <;> by_contra hc <;> exact hv (by simp [Bool.eq_false_iff.mpr hc])
    by_cases hl : s.a.vec.len = s.b.vec.len
    · exact .inr (.inr ⟨ha, hb, hl, by simp [arithmetic, operands_ok ha hb hl]⟩)
    · exact .inr (.inl ⟨ha, hb, hl, by simp [arithmetic, operands_lengthMismatch ha hb hl]⟩)

/-! ### BitVectors -/

@[simp] theorem BitString.ofNat_len (len v : Nat) : (BitString.ofNat len v).len = len := rfl

@[simp] theorem BitString.ofNat_val (len v : Nat) : (BitString.ofNat len v).val = v % 2 ^ len := by
  simp [BitString.val, BitString.ofNat]

theorem BitString.val_lt (v : BitString) : v.val < 2 ^ v.len := v.bits.isLt

/-- Two BitVectors of one length and one value are equal (R13). -/
theorem BitString.ext_val {v w : BitString} (hl : v.len = w.len) (h : v.val = w.val) : v = w := by
  obtain ⟨n, x⟩ := v
  obtain ⟨m, y⟩ := w
  cases hl
  simp only [BitString.val] at h
  exact congrArg (BitString.mk n) (BitVec.eq_of_toNat_eq h)

@[simp] theorem BitString.ofBits_len (bs : List Bool) : (BitString.ofBits bs).len = bs.length := rfl

@[simp] theorem BitString.toBits_length (v : BitString) : v.toBits.length = v.len := by simp [BitString.toBits]

/-- The value of a string, its last bit being the least significant. -/
@[simp] theorem bitsValue_append_singleton (bs : List Bool) (b : Bool) :
    bitsValue (bs ++ [b]) = 2 * bitsValue bs + b.toNat := by
  simp [bitsValue]

theorem bitsValue_lt (bs : List Bool) : bitsValue bs < 2 ^ bs.length := by
  induction bs using List.reverseRecOn with
  | nil => simp [bitsValue]
  | append_singleton bs b ih =>
    have := b.toNat_le
    simp only [bitsValue_append_singleton, List.length_append, List.length_singleton, pow_succ]
    omega

@[simp] theorem BitString.ofBits_val (bs : List Bool) : (BitString.ofBits bs).val = bitsValue bs := by
  simp [BitString.ofBits, Nat.mod_eq_of_lt (bitsValue_lt bs)]

/-! ### Loads (R97, R98) -/

theorem loadOperand_invalidLength {lmax : Nat} {cs : List Word} (h : cs.length = 0 ∨ cs.length > lmax) :
    loadOperand lmax cs = .error .invalidLength := by
  simp only [loadOperand, if_pos h]

theorem loadOperand_invalidDigit {lmax : Nat} {cs : List Word} (h1 : ¬ (cs.length = 0 ∨ cs.length > lmax))
    (h2 : cs.all isDigit = false) : loadOperand lmax cs = .error .invalidDigit := by
  simp only [loadOperand, if_neg h1, if_pos h2]

theorem loadOperand_ok {lmax : Nat} {cs : List Word} (h1 : ¬ (cs.length = 0 ∨ cs.length > lmax))
    (h2 : cs.all isDigit = true) : loadOperand lmax cs = .ok (BitString.ofBits (cs.map digit)) := by
  rw [loadOperand, if_neg h1, if_neg (by simp [h2])]

/-! ### Instances (R92, R93) -/

/-- Every outcome of selecting an instance for STEP or RUN. -/
theorem configured_cases (s : State) (u : Nat) :
    (s.lfsrs.length ≤ u ∧ s.configured u = .error .invalidUnit) ∨
    (∃ l, s.lfsrs[u]? = some l ∧ l.cfg = false ∧ s.configured u = .error .notConfigured) ∨
    (∃ l, s.lfsrs[u]? = some l ∧ l.cfg = true ∧ s.configured u = .ok l) := by
  cases hl : s.lfsrs[u]? with
  | none => exact .inl ⟨List.getElem?_eq_none_iff.mp hl, by simp [State.configured, hl]⟩
  | some l =>
    cases hc : l.cfg with
    | false => exact .inr (.inl ⟨l, rfl, hc, by simp [State.configured, hl, hc]⟩)
    | true => exact .inr (.inr ⟨l, rfl, hc, by simp [State.configured, hl, hc]⟩)

/-- What a fill gives is a list of `n` bits, and its errors are FillTooShort and InvalidDigit (R91). -/
theorem fillBits_length {n u k : Nat} {fill : Fill} {cells : List Bool} (h : fillBits n u k fill = .ok cells) :
    cells.length = n := by
  cases fill with
  | allOnes => simp only [fillBits, Except.ok.injEq] at h; simp [← h]
  | random => simp only [fillBits, Except.ok.injEq] at h; simp [← h, draw]
  | custom cs =>
    simp only [fillBits] at h
    split at h
    · simp at h
    · split at h
      · simp at h
      · simp only [Except.ok.injEq] at h
        simp [← h]
        omega

/-- A successful configuration: the checks passed, and what the instance then holds (R91). -/
theorem configure_ok {nmax u n : Nat} {old l : Lfsr} {taps : List Word} {fill : Fill}
    (h : configure nmax u old n taps fill = .ok l) :
    1 ≤ n ∧ n ≤ nmax ∧ taps ≠ [] ∧ (∀ w ∈ taps, badTap n w = false) ∧
    ∃ cells, fillBits n u old.draws fill = .ok cells ∧
      l = { old with cfg := true, n := n, taps := tapSet n taps, stages := cells, seq := [], fpv := false
                     rep := false, rundone := false, runrep := false, lastrun := 0
                     draws := countDraw old.draws fill } := by
  simp only [configure] at h
  split at h
  · simp at h
  split at h
  · simp at h
  split at h
  · simp at h
  split at h
  · simp at h
  rename_i hn ht hb _ cells hf
  simp only [Except.ok.injEq] at h
  refine ⟨by omega, by omega, by simpa using ht, ?_, cells, hf, h.symm⟩
  intro w hw
  simp only [List.any_eq_true, not_exists, not_and] at hb
  simpa using hb w hw

/-- The tap set lists, ascending, the cells i with i + 1 among the tap words and i < n (R27, D27). -/
theorem mem_tapSet {n i : Nat} {taps : List Word} :
    i ∈ tapSet n taps ↔ i < n ∧ ∃ w ∈ taps, w.toInt = (i : Int) + 1 := by
  simp [tapSet]

theorem tapSet_ascending (n : Nat) (taps : List Word) : (tapSet n taps).Pairwise (· < ·) :=
  List.Pairwise.filter _ List.pairwise_lt_range

end Sys2Proof.Machine
end

