-- ==== Sys2Proof/Laws/Adder.lean ====
section
/-! SUPPORT. The addition pass, bit position by bit position (41_adder.md R72). -/

namespace Sys2Proof.Machine

@[simp] theorem pass_zero (x y : Nat) : pass x y 0 = (0, 0) := rfl

/-- One bit position of a pass: the sum of the two bits and the carry, its low bit kept and its high bit carried on. -/
theorem pass_succ (x y p : Nat) :
    pass x y (p + 1) =
      ((pass x y p).1 + (bitAt x p + bitAt y p + (pass x y p).2) % 2 * 2 ^ p,
        (bitAt x p + bitAt y p + (pass x y p).2) / 2) := rfl

theorem bitAt_le_one (x p : Nat) : bitAt x p ≤ 1 := Bool.toNat_le _

/-- A bit of a value adds its weight to the bits below it. -/
theorem mod_pow_succ_bitAt (x p : Nat) : x % 2 ^ (p + 1) = x % 2 ^ p + bitAt x p * 2 ^ p := by
  rw [Nat.mod_pow_succ, bitAt, Nat.testBit_eq_decide_div_mod_eq, Nat.mul_comm]
  rcases Nat.mod_two_eq_zero_or_one (x / 2 ^ p) with h | h <;> simp [h]

/-- The carry of a pass is a bit. -/
theorem pass_carry_le_one (x y len : Nat) : (pass x y len).2 ≤ 1 := by
  induction len with
  | zero => simp
  | succ p ih =>
    have hx := bitAt_le_one x p
    have hy := bitAt_le_one y p
    rw [pass_succ]
    simp only
    omega

/-- A pass loses nothing: sum and carry together are the sum of the operands' low `len` bits. -/
theorem pass_conserves (x y len : Nat) :
    (pass x y len).1 + (pass x y len).2 * 2 ^ len = x % 2 ^ len + y % 2 ^ len := by
  induction len with
  | zero => simp [Nat.mod_one]
  | succ p ih =>
    rw [pass_succ, mod_pow_succ_bitAt x, mod_pow_succ_bitAt y]
    simp only
    have hsplit := Nat.div_add_mod (bitAt x p + bitAt y p + (pass x y p).2) 2
    generalize (bitAt x p + bitAt y p + (pass x y p).2) / 2 = q at *
    generalize (bitAt x p + bitAt y p + (pass x y p).2) % 2 = m at *
    have hweighted : (2 * q + m) * 2 ^ p = (bitAt x p + bitAt y p + (pass x y p).2) * 2 ^ p := by rw [hsplit]
    rw [pow_succ]
    linarith

/-- The end of the fold-back loop on a zero wrap (R75). -/
@[simp] theorem foldBack_zero_wrap (len fuel r n : Nat) : foldBack len fuel (r, 0) n = (r, n) := by
  cases fuel <;> simp [foldBack]

end Sys2Proof.Machine
end

