-- ==== Sys2Proof/Laws/Decode.lean ====
section
/-! SUPPORT. Headers and their fields (30_encoding.md R52). -/

namespace Sys2Proof

/-- A field of a header is a quotient and a remainder of the header's value. -/
theorem bits_header {op low : Nat} (h : op * 2 ^ 24 + low < 2 ^ 32) (hi lo : Nat) :
    bits (header op low) hi lo = (op * 2 ^ 24 + low) / 2 ^ lo % 2 ^ (hi + 1 - lo) := by
  rw [bits, header, BitVec.toNat_ofNat, Nat.mod_eq_of_lt h]

/-- The opcode of a header made of an opcode and 24 low bits. -/
theorem opcode_header {op low : Nat} (ho : op < 2 ^ 8) (hl : low < 2 ^ 24) : bits (header op low) 31 24 = op := by
  rw [bits_header (by omega)]
  omega

/-- A bit of a field is a bit of the header. -/
theorem testBit_bits (h : Word) (hi lo j : Nat) :
    (bits h hi lo).testBit j = (decide (j < hi + 1 - lo) && h.getLsbD (lo + j)) := by
  rw [bits, Nat.testBit_mod_two_pow, Nat.testBit_div_two_pow]
  simp [BitVec.getLsbD, Nat.add_comm]

/-- A field has a value exactly when the header has that value's bits in the field's place. -/
theorem bits_eq_iff (h : Word) (hi lo v : Nat) (hv : v < 2 ^ (hi + 1 - lo)) :
    bits h hi lo = v ↔ ∀ j, j < hi + 1 - lo → h.getLsbD (lo + j) = v.testBit j := by
  constructor
  · rintro rfl j hj
    simp [testBit_bits, hj]
  · intro hbits
    refine Nat.eq_of_testBit_eq fun j => ?_
    by_cases hj : j < hi + 1 - lo
    · simp [testBit_bits, hj, hbits j hj]
    · have hsmall : v < 2 ^ j := lt_of_lt_of_le hv (Nat.pow_le_pow_right (by norm_num) (by omega))
      simp [testBit_bits, hj, Nat.testBit_lt_two_pow hsmall]

/-- A header selects a row when, under the row's mask, its bits are the row's (R63). -/
theorem selects_iff_bits (row : OpRow) (h : Word) :
    row.selects h = true ↔ ∀ i, i < 32 → (h.getLsbD i && row.maskH.getLsbD i) = row.matchH.getLsbD i := by
  rw [OpRow.selects, beq_iff_eq]
  constructor
  · intro heq i _
    rw [← heq, BitVec.getLsbD_and]
  · intro hbits
    refine BitVec.eq_of_getLsbD_eq fun i hi => ?_
    rw [BitVec.getLsbD_and, hbits i hi]

theorem decodeBytes_none {bs : List Byte} (h : Packet.ofBytes bs = none) :
    decodeBytes bs = .error .byteCount := by
  simp [decodeBytes, h]

end Sys2Proof
end

