-- ==== Sys2Proof/Laws/Lfsr.lean ====
section
/-! SUPPORT. The cycle (43_lfsr.md R88) and the loop of RUN (R93), said once. -/

namespace Sys2Proof.Machine

section
variable (l : Lfsr)

/-! ### The registers a cycle does not write -/

@[simp] theorem Lfsr.shift_seq : l.shift.seq = l.seq ++ [l.feedback] := rfl
@[simp] theorem Lfsr.shift_stages : l.shift.stages = l.feedback :: l.stages.take (l.n - 1) := rfl
@[simp] theorem Lfsr.shift_cfg : l.shift.cfg = l.cfg := rfl
@[simp] theorem Lfsr.shift_n : l.shift.n = l.n := rfl
@[simp] theorem Lfsr.shift_taps : l.shift.taps = l.taps := rfl
@[simp] theorem Lfsr.shift_fp : l.shift.fp = l.fp := rfl
@[simp] theorem Lfsr.shift_fpv : l.shift.fpv = l.fpv := rfl
@[simp] theorem Lfsr.shift_rep : l.shift.rep = l.rep := rfl
@[simp] theorem Lfsr.shift_replen : l.shift.replen = l.replen := rfl
@[simp] theorem Lfsr.shift_rundone : l.shift.rundone = l.rundone := rfl
@[simp] theorem Lfsr.shift_runrep : l.shift.runrep = l.runrep := rfl
@[simp] theorem Lfsr.shift_lastrun : l.shift.lastrun = l.lastrun := rfl
@[simp] theorem Lfsr.shift_draws : l.shift.draws = l.draws := rfl

/-- What the fingerprint logic can do: capture, detect, or nothing (R88). -/
theorem Lfsr.detect_cases :
    (l.seq.length = l.n ∧ l.detect = { l with fp := l.seq.take l.n, fpv := true }) ∨
    (l.n < l.seq.length ∧ l.seq.drop (l.seq.length - l.n) = l.fp ∧
      l.detect = { l with rep := true, replen := if l.rep then l.replen else l.seq.length }) ∨
    (l.seq.length ≠ l.n ∧ ¬ (l.n < l.seq.length ∧ l.seq.drop (l.seq.length - l.n) = l.fp) ∧ l.detect = l) := by
  by_cases h1 : l.seq.length = l.n
  · exact .inl ⟨h1, by simp only [Lfsr.detect, if_pos h1]⟩
  · by_cases h2 : l.n < l.seq.length ∧ l.seq.drop (l.seq.length - l.n) = l.fp
    · exact .inr (.inl ⟨h2.1, h2.2, by simp only [Lfsr.detect, if_neg h1, gt_iff_lt, if_pos h2]⟩)
    · exact .inr (.inr ⟨h1, h2, by simp only [Lfsr.detect, if_neg h1, gt_iff_lt, if_neg h2]⟩)

@[simp] theorem Lfsr.detect_seq : l.detect.seq = l.seq := by
  obtain ⟨-, h⟩ | ⟨-, -, h⟩ | ⟨-, -, h⟩ := l.detect_cases <;> rw [h]

@[simp] theorem Lfsr.detect_stages : l.detect.stages = l.stages := by
  obtain ⟨-, h⟩ | ⟨-, -, h⟩ | ⟨-, -, h⟩ := l.detect_cases <;> rw [h]

@[simp] theorem Lfsr.detect_cfg : l.detect.cfg = l.cfg := by
  obtain ⟨-, h⟩ | ⟨-, -, h⟩ | ⟨-, -, h⟩ := l.detect_cases <;> rw [h]

@[simp] theorem Lfsr.detect_n : l.detect.n = l.n := by
  obtain ⟨-, h⟩ | ⟨-, -, h⟩ | ⟨-, -, h⟩ := l.detect_cases <;> rw [h]

@[simp] theorem Lfsr.detect_taps : l.detect.taps = l.taps := by
  obtain ⟨-, h⟩ | ⟨-, -, h⟩ | ⟨-, -, h⟩ := l.detect_cases <;> rw [h]

@[simp] theorem Lfsr.detect_rundone : l.detect.rundone = l.rundone := by
  obtain ⟨-, h⟩ | ⟨-, -, h⟩ | ⟨-, -, h⟩ := l.detect_cases <;> rw [h]

@[simp] theorem Lfsr.detect_runrep : l.detect.runrep = l.runrep := by
  obtain ⟨-, h⟩ | ⟨-, -, h⟩ | ⟨-, -, h⟩ := l.detect_cases <;> rw [h]

@[simp] theorem Lfsr.detect_lastrun : l.detect.lastrun = l.lastrun := by
  obtain ⟨-, h⟩ | ⟨-, -, h⟩ | ⟨-, -, h⟩ := l.detect_cases <;> rw [h]

@[simp] theorem Lfsr.detect_draws : l.detect.draws = l.draws := by
  obtain ⟨-, h⟩ | ⟨-, -, h⟩ | ⟨-, -, h⟩ := l.detect_cases <;> rw [h]

@[simp] theorem Lfsr.cycle_seq : l.cycle.seq = l.seq ++ [l.feedback] := by simp [Lfsr.cycle]
@[simp] theorem Lfsr.cycle_stages : l.cycle.stages = l.feedback :: l.stages.take (l.n - 1) := by simp [Lfsr.cycle]
@[simp] theorem Lfsr.cycle_cfg : l.cycle.cfg = l.cfg := by simp [Lfsr.cycle]
@[simp] theorem Lfsr.cycle_n : l.cycle.n = l.n := by simp [Lfsr.cycle]
@[simp] theorem Lfsr.cycle_taps : l.cycle.taps = l.taps := by simp [Lfsr.cycle]
@[simp] theorem Lfsr.cycle_rundone : l.cycle.rundone = l.rundone := by simp [Lfsr.cycle]
@[simp] theorem Lfsr.cycle_runrep : l.cycle.runrep = l.runrep := by simp [Lfsr.cycle]
@[simp] theorem Lfsr.cycle_lastrun : l.cycle.lastrun = l.lastrun := by simp [Lfsr.cycle]
@[simp] theorem Lfsr.cycle_draws : l.cycle.draws = l.draws := by simp [Lfsr.cycle]

/-- REP, once set, stays set (R31). -/
theorem Lfsr.cycle_rep_of_rep (h : l.rep = true) : l.cycle.rep = true := by
  obtain ⟨-, hd⟩ | ⟨-, -, hd⟩ | ⟨-, -, hd⟩ := l.shift.detect_cases <;> simp [Lfsr.cycle, hd, h]

/-! ### Many cycles -/

@[simp] theorem Lfsr.cycles_zero : l.cycles 0 = l := rfl
theorem Lfsr.cycles_succ (k : Nat) : l.cycles (k + 1) = (l.cycles k).cycle := rfl

theorem Lfsr.cycles_succ' (k : Nat) : l.cycles (k + 1) = l.cycle.cycles k := by
  induction k with
  | zero => rfl
  | succ k ih => rw [Lfsr.cycles_succ, ih, Lfsr.cycles_succ]

theorem Lfsr.cycles_add (j k : Nat) : l.cycles (j + k) = (l.cycles j).cycles k := by
  induction k with
  | zero => rfl
  | succ k ih => rw [Nat.add_succ, Lfsr.cycles_succ, ih, Lfsr.cycles_succ]

@[simp] theorem Lfsr.cycles_cfg (k : Nat) : (l.cycles k).cfg = l.cfg := by
  induction k with
  | zero => rfl
  | succ k ih => rw [Lfsr.cycles_succ, Lfsr.cycle_cfg, ih]

@[simp] theorem Lfsr.cycles_n (k : Nat) : (l.cycles k).n = l.n := by
  induction k with
  | zero => rfl
  | succ k ih => rw [Lfsr.cycles_succ, Lfsr.cycle_n, ih]

@[simp] theorem Lfsr.cycles_taps (k : Nat) : (l.cycles k).taps = l.taps := by
  induction k with
  | zero => rfl
  | succ k ih => rw [Lfsr.cycles_succ, Lfsr.cycle_taps, ih]

end

/-- What the loop of RUN does, from `e` cycles done: some `k` more cycles, at most `limit`, REP being 0 before each of
them; it stops because REP is 1 or because `limit` cycles are done (R93). -/
theorem Lfsr.runLoop_spec (limit : Nat) (l : Lfsr) (e : Nat) :
    ∃ k, k ≤ limit ∧ l.runLoop limit e = (l.cycles k, e + k) ∧ (∀ j, j < k → (l.cycles j).rep = false) ∧
      ((l.cycles k).rep = true ∨ k = limit) := by
  induction limit generalizing l e with
  | zero => exact ⟨0, by simp [Lfsr.runLoop]⟩
  | succ limit ih =>
    by_cases hr : l.rep = true
    · exact ⟨0, by simp [Lfsr.runLoop, hr]⟩
    · obtain ⟨k, hk, hrun, hbefore, hstop⟩ := ih l.cycle (e + 1)
      refine ⟨k + 1, by omega, ?_, ?_, ?_⟩
      · rw [Lfsr.runLoop, if_neg hr, hrun, Lfsr.cycles_succ', Nat.add_assoc, Nat.add_comm 1 k]
      · intro j hj
        cases j with
        | zero => simpa using hr
        | succ j => rw [Lfsr.cycles_succ']; exact hbefore j (by omega)
      · rw [Lfsr.cycles_succ']
        rcases hstop with h | h
        · exact .inl h
        · exact .inr (by omega)

end Sys2Proof.Machine
end

