-- ==== Sys2Proof/Laws/Exec.lean ====
section
/-! SUPPORT. What a command can do, said once: every next state of `exec` is the old state after one named write. -/

namespace Sys2Proof.Machine

/-- A string of digits is one all of whose characters pass the loads' check (R58). -/
theorem digitsOk_iff (cs : List Word) : digitsOk cs ↔ cs.all isDigit = true := by
  simp [digitsOk, isDigit]

theorem not_digitsOk_iff (cs : List Word) : ¬ digitsOk cs ↔ cs.all isDigit = false := by
  rw [digitsOk_iff, Bool.not_eq_true]

/-- The operation on values and the pass count of each arithmetic command (R70, R71, R74, R75). -/
theorem exec_arithmetic {i : Instr} (h : i ∈ arithmeticCommands) : ∃ op, ∀ s, exec i s = arithmetic op s := by
  simp only [arithmeticCommands, List.mem_cons, List.not_mem_nil, or_false] at h
  rcases h with rfl | rfl | rfl | rfl
  · exact ⟨fun len x y => ((pass x y len).1, 1), fun _ => rfl⟩
  · exact ⟨endAround, fun _ => rfl⟩
  · exact ⟨fun _ x y => (x &&& y, 0), fun _ => rfl⟩
  · exact ⟨fun _ x y => (x ^^^ y, 0), fun _ => rfl⟩

/-- What a command of the arithmetic unit can do: raise an error, nothing but ERR <- 0, load A, load B, or write R and
PASSES. -/
theorem exec_cases_of_no_unit {i : Instr} {s t : State} (hu : unitOf i = none) (h : exec i s = .next t) :
    (∃ e ∈ errorsOf i, t = s.raise e) ∨ (i = .nop ∧ t = s.succeed) ∨
    (∃ cs v, i = .lda cs ∧ loadOperand s.params.lmax cs = .ok v ∧ t = (s.loadA v).succeed) ∨
    (∃ cs v, i = .ldb cs ∧ loadOperand s.params.lmax cs = .ok v ∧ t = (s.loadB v).succeed) ∨
    (i ∈ arithmeticCommands ∧ s.a.valid = true ∧ s.b.valid = true ∧ s.a.vec.len = s.b.vec.len ∧
      ∃ v passes, v.len = s.a.vec.len ∧ t = (s.setResult v passes).succeed) := by
  have harith : i ∈ arithmeticCommands → errorsOf i = [.noOperand, .lengthMismatch] →
      (∃ e ∈ errorsOf i, t = s.raise e) ∨
      (i ∈ arithmeticCommands ∧ s.a.valid = true ∧ s.b.valid = true ∧ s.a.vec.len = s.b.vec.len ∧
        ∃ v passes, v.len = s.a.vec.len ∧ t = (s.setResult v passes).succeed) := by
    intro hi he
    obtain ⟨op, hop⟩ := exec_arithmetic hi
    rw [hop s] at h
    rw [he]
    obtain ⟨-, h'⟩ | ⟨-, -, -, h'⟩ | ⟨ha, hb, hl, h'⟩ := arithmetic_cases op s <;> rw [h'] at h <;> cases h
    · exact .inl ⟨.noOperand, by simp, rfl⟩
    · exact .inl ⟨.lengthMismatch, by simp, rfl⟩
    · exact .inr ⟨hi, ha, hb, hl, BitString.ofNat _ _, _, rfl, rfl⟩
  have hload : ∀ cs e, loadOperand s.params.lmax cs = .error e → e = .invalidLength ∨ e = .invalidDigit := by
    intro cs e he
    unfold loadOperand at he
    split at he
    · cases he; exact .inl rfl
    · split at he <;> cases he
      exact .inr rfl
  cases i with
  | nop => cases h; exact .inr (.inl ⟨rfl, rfl⟩)
  | addt => obtain h | h := harith (by decide) rfl; exacts [.inl h, .inr (.inr (.inr (.inr h)))]
  | adde => obtain h | h := harith (by decide) rfl; exacts [.inl h, .inr (.inr (.inr (.inr h)))]
  | and => obtain h | h := harith (by decide) rfl; exacts [.inl h, .inr (.inr (.inr (.inr h)))]
  | xor => obtain h | h := harith (by decide) rfl; exacts [.inl h, .inr (.inr (.inr (.inr h)))]
  | lda cs =>
    cases hl : loadOperand s.params.lmax cs with
    | error e =>
      simp only [exec, execLda, hl, Except.map, finish_error, Host.Outcome.next.injEq] at h
      refine .inl ⟨e, ?_, h.symm⟩
      rcases hload cs e hl with rfl | rfl <;> simp [errorsOf]
    | ok v =>
      simp only [exec, execLda, hl, Except.map, finish_ok, Host.Outcome.next.injEq] at h
      exact .inr (.inr (.inl ⟨cs, v, rfl, hl, h.symm⟩))
  | ldb cs =>
    cases hl : loadOperand s.params.lmax cs with
    | error e =>
      simp only [exec, execLdb, hl, Except.map, finish_error, Host.Outcome.next.injEq] at h
      refine .inl ⟨e, ?_, h.symm⟩
      rcases hload cs e hl with rfl | rfl <;> simp [errorsOf]
    | ok v =>
      simp only [exec, execLdb, hl, Except.map, finish_ok, Host.Outcome.next.injEq] at h
      exact .inr (.inr (.inr (.inl ⟨cs, v, rfl, hl, h.symm⟩)))
  | lcfg => cases hu
  | step => cases hu
  | run => cases hu

/-- The budget operand and the loop of RUN: with a budget RUN completes; with none it completes exactly when the loop
reaches a repetition (R93). -/
theorem exec_run_configured {s : State} {u : Fin 16} {l : Lfsr} (budget : Option Word)
    (hl : s.lfsrs[u.val]? = some l) (hc : l.cfg = true) :
    ∃ k, k ≤ (match budget with | some w => w.toNat | none => l.repeatBound) ∧
      (∀ j, j < k → (l.cycles j).rep = false) ∧
      ((l.cycles k).rep = true ∨ k = (match budget with | some w => w.toNat | none => l.repeatBound)) ∧
      exec (.run u budget) s =
        if budget = none ∧ (l.cycles k).rep = false then .fault .runNeverRepeats
        else .next (s.setLfsr u ((l.cycles k).endRun k)).succeed := by
  have hs : s.configured u = .ok l := by simp [State.configured, hl, hc]
  cases budget with
  | some w =>
    obtain ⟨k, hle, hk, hbefore, hstop⟩ := l.runLoop_spec w.toNat 0
    exact ⟨k, hle, hbefore, hstop, by simp [exec, execRun, hs, hk]⟩
  | none =>
    obtain ⟨k, hle, hk, hbefore, hstop⟩ := l.runLoop_spec l.repeatBound 0
    refine ⟨k, hle, hbefore, hstop, ?_⟩
    cases hr : (l.cycles k).rep <;> simp [exec, execRun, hs, hk, hr]

/-- What a command on instance `u` can do: raise an error, or write that instance: with a configuration, with one cycle, or with the cycles of a RUN and its run status. -/
theorem exec_cases_of_unit {i : Instr} {s t : State} {u : Fin 16} (hu : unitOf i = some u) (h : exec i s = .next t) :
    (∃ e : ErrorCode, t = s.raise e) ∨
    ∃ l, s.lfsrs[u.val]? = some l ∧
      ((∃ ns taps fill l', i = .lcfg u ns taps fill ∧ configure s.params.nmax u.val l ns taps fill = .ok l' ∧
          t = (s.setLfsr u l').succeed) ∨
        (i = .step u ∧ l.cfg = true ∧ t = (s.setLfsr u l.cycle).succeed) ∨
        (∃ budget k, i = .run u budget ∧ l.cfg = true ∧ (∀ j, j < k → (l.cycles j).rep = false) ∧
          t = (s.setLfsr u ((l.cycles k).endRun k)).succeed)) := by
  cases i with
  | nop => cases hu
  | addt => cases hu
  | adde => cases hu
  | and => cases hu
  | xor => cases hu
  | lda => cases hu
  | ldb => cases hu
  | lcfg v ns taps fill =>
    cases hu
    rcases finish_next h with ⟨e, -, rfl⟩ | ⟨w, hw, rfl⟩
    · exact .inl ⟨e, rfl⟩
    · split at hw
      · cases hw
      · rename_i old hold
        cases hc : configure s.params.nmax u.val old ns taps fill with
        | error e => rw [hc] at hw; cases hw
        | ok l' => rw [hc] at hw; cases hw; exact .inr ⟨old, hold, .inl ⟨ns, taps, fill, l', rfl, hc, rfl⟩⟩
  | step v =>
    cases hu
    rcases finish_next h with ⟨e, -, rfl⟩ | ⟨w, hw, rfl⟩
    · exact .inl ⟨e, rfl⟩
    · obtain ⟨-, hs⟩ | ⟨-, -, -, hs⟩ | ⟨l, hl, hc, hs⟩ := configured_cases s u <;> rw [hs] at hw <;> cases hw
      exact .inr ⟨l, hl, .inr (.inl ⟨rfl, hc, rfl⟩)⟩
  | run v budget =>
    cases hu
    obtain ⟨-, hs⟩ | ⟨-, -, -, hs⟩ | ⟨l, hl, hc, -⟩ := configured_cases s u
    · simp only [exec, execRun, hs, finish_error, Host.Outcome.next.injEq] at h
      exact .inl ⟨_, h.symm⟩
    · simp only [exec, execRun, hs, finish_error, Host.Outcome.next.injEq] at h
      exact .inl ⟨_, h.symm⟩
    · obtain ⟨k, -, hbefore, -, hrun⟩ := exec_run_configured budget hl hc
      rw [hrun] at h
      split at h
      · cases h
      · simp only [Host.Outcome.next.injEq] at h
        exact .inr ⟨l, hl, .inr (.inr ⟨budget, k, rfl, hc, hbefore, h.symm⟩)⟩

end Sys2Proof.Machine
end

