-- ==== Sys2Proof/Laws/PerInstr.lean ====
section
/-! SUPPORT. Per-command laws: the opcode of an encoded command is the one the opcode map lists (30_encoding.md R63). -/

namespace Sys2Proof.Laws.EncodedOpcode

/-- The opcode of the map's row with this command's mnemonic is the opcode of its header. -/
def Statement (i : Instr) : Prop :=
  i.wf = true → ∃ row ∈ opcodeMap, row.mnemonic = i.mnemonic ∧ bits (encode i).header 31 24 = row.op

theorem nop : Statement .nop := fun _ => by decide

theorem addt : Statement .addt := fun _ => by decide

theorem adde : Statement .adde := fun _ => by decide

theorem and : Statement .and := fun _ => by decide

theorem xor : Statement .xor := fun _ => by decide

theorem lda (chars : List Word) : Statement (.lda chars) := fun h => by
  simp only [Instr.wf, decide_eq_true_eq] at h
  exact ⟨⟨"LDA", 0x10, .L, 0x10000000#32, 0xFFFFFE00#32⟩, by decide, rfl, opcode_header (by omega) (by omega)⟩

theorem ldb (chars : List Word) : Statement (.ldb chars) := fun h => by
  simp only [Instr.wf, decide_eq_true_eq] at h
  exact ⟨⟨"LDB", 0x11, .L, 0x11000000#32, 0xFFFFFE00#32⟩, by decide, rfl, opcode_header (by omega) (by omega)⟩

theorem lcfg (u : Fin 16) (ns : Fin 512) (taps : List Word) (fill : Fill) : Statement (.lcfg u ns taps fill) := fun h => by
  simp only [Instr.wf, Bool.and_eq_true, decide_eq_true_eq] at h
  have hf : fill.fpol ≤ 2 := by cases fill <;> simp [Fill.fpol]
  exact ⟨⟨"LCFG", 0x20, .C, 0x20000000#32, 0xFF000200#32⟩, by decide, rfl, opcode_header (by omega) (by omega)⟩

theorem step (u : Fin 16) : Statement (.step u) := fun _ =>
  ⟨⟨"STEP", 0x21, .U, 0x21000000#32, 0xFF0FFFFF#32⟩, by decide, rfl, opcode_header (by omega) (by omega)⟩

theorem run (u : Fin 16) (budget : Option Word) : Statement (.run u budget) := fun _ => by
  refine ⟨⟨"RUN", 0x22, .RN, 0x22000000#32, 0xFF0FFFFE#32⟩, by decide, rfl, ?_⟩
  cases budget <;> exact opcode_header (by omega) (by omega)

end Sys2Proof.Laws.EncodedOpcode
end

