-- ==== Sys2Proof/Laws/ReadMap.lean ====
section
/-! SUPPORT. The register-read map (30_encoding.md R66), said once: what id names what register, and what a counter reads
as. -/

namespace Sys2Proof.Machine

/-- The ids R66 gives instance `u` name that instance's registers. -/
theorem regOf_lfsrId {u : Nat} (hu : u < 15) (f : LfsrReg) : regOf (lfsrId u f) = .lfsr u f := by
  interval_cases u <;> cases f <;> rfl

/-- A READ of an id of instance `u` gives that instance's register (R66). -/
theorem readReg_lfsrId {s : State} {u : Nat} {l : Lfsr} (hu : u < 15) (hl : s.lfsrs[u]? = some l) (f : LfsrReg) :
    s.readReg (lfsrId u f) = l.read s.params u f := by
  simp [State.readReg, regOf_lfsrId hu, hl]

/-- An id of an instance u >= NLFSR reads as the word 0 (R66). -/
theorem readReg_lfsrId_absent {s : State} {u : Nat} (hu : u < 15) (hl : s.lfsrs.length ≤ u) (f : LfsrReg) :
    s.readReg (lfsrId u f) = .word 0#32 := by
  simp [State.readReg, regOf_lfsrId hu, List.getElem?_eq_none hl]

/-- No width, or a width the value fits. -/
theorem pastWidth_eq_false {p : Config.Params} {v : Nat} (h : ∀ w, p.seqlenBits = some w → v < 2 ^ w) :
    pastWidth p v = false := by
  unfold pastWidth
  split
  · rfl
  · rename_i w hw
    exact decide_eq_false (Nat.not_le.mpr (h w hw))

@[simp] theorem pastWidth_zero (p : Config.Params) : pastWidth p 0 = false :=
  pastWidth_eq_false fun _ _ => Nat.two_pow_pos _

theorem counterRead_eq {p : Config.Params} {v : Nat} (id : Byte) (h : pastWidth p v = false) : counterRead p id v = v := by
  simp [counterRead, h]

/-- REPLEN and PERIOD as a READ gives them, while REPLEN fits the width: the registers themselves (R31, R32). -/
theorem Lfsr.replenRead_eq {p : Config.Params} {u : Nat} {l : Lfsr} (h : pastWidth p l.replen = false) :
    l.replenRead p u = if l.rep then l.replen else 0 := by
  cases hr : l.rep <;> simp [Lfsr.replenRead, counterRead, hr, h]

theorem Lfsr.periodRead_eq {p : Config.Params} {u : Nat} {l : Lfsr} (h : pastWidth p l.replen = false) :
    l.periodRead p u = l.period := by
  simp [Lfsr.periodRead, h]

/-- PERIOD as a READ gives it is REPLEN as a READ gives it less N, when that is a natural number (R32). -/
theorem Lfsr.periodRead_of_rep {p : Config.Params} {u : Nat} {l : Lfsr} (hr : l.rep = true) (hn : l.n ≤ l.replenRead p u) :
    l.periodRead p u = l.replenRead p u - l.n := by
  cases h : pastWidth p l.replen with
  | false => rw [Lfsr.periodRead_eq h, Lfsr.replenRead_eq h, if_pos hr, Lfsr.period, if_pos hr]
  | true => rw [Lfsr.periodRead, if_pos ⟨hr, h⟩, if_neg (Nat.not_lt.mpr hn)]

theorem Lfsr.reads_of_not_rep {p : Config.Params} {u : Nat} {l : Lfsr} (hr : l.rep = false) :
    l.replenRead p u = 0 ∧ l.periodRead p u = 0 := by
  simp [Lfsr.replenRead, Lfsr.periodRead, Lfsr.period, counterRead, hr]

end Sys2Proof.Machine
end

