-- ==== Sys2Proof/Tests/Slice0.lean ====
section
/-! SUPPORT. The smoke tests of WellFormed, decoding by words written out from the encodings of 30_encoding.md, one-step
tests whose results are the spec's own vectors (95_test_vectors.md) or worked examples, and, for every statement with
hypotheses, a witness that meets them. -/

namespace Sys2Proof.Tests

open Sys2Proof Sys2Proof.Machine

/-! ### WellFormed refuses what the encoding cannot express (R54, R55, R60) -/

theorem test_wf_lda_511 : (Instr.lda (List.replicate 511 0x30#32)).wf = true := by
  rw [Instr.wf, List.length_replicate]; rfl
theorem test_wf_refuses_lda_512 : (Instr.lda (List.replicate 512 0x30#32)).wf = false := by
  rw [Instr.wf, List.length_replicate]; rfl
theorem test_wf_refuses_ldb_512 : (Instr.ldb (List.replicate 512 0x30#32)).wf = false := by
  rw [Instr.wf, List.length_replicate]; rfl
theorem test_wf_lcfg_255_taps : (Instr.lcfg 15 511 (List.replicate 255 1#32) .random).wf = true := by
  rw [Instr.wf, List.length_replicate]; rfl
theorem test_wf_refuses_lcfg_256_taps : (Instr.lcfg 0 8 (List.replicate 256 1#32) .allOnes).wf = false := by
  rw [Instr.wf, List.length_replicate]; rfl
theorem test_wf_refuses_long_fill (cs : List Word) (h : cs.length = 2 ^ 32) :
    (Instr.lcfg 0 8 [1#32] (.custom cs)).wf = false := by
  rw [Instr.wf, Fill.wf, h]; rfl
/-- There are fills that long. -/
theorem test_long_fill_exists : ∃ cs : List Word, cs.length = 2 ^ 32 := ⟨List.replicate (2 ^ 32) 0#32, List.length_replicate⟩

/-! ### Decoding: the words of R53 to R57, bit by bit (opcode, then the format's fields) -/

/-- The pattern `00000000 000000000000000000000000`. -/
theorem test_decode_nop : decode ⟨0b00000000000000000000000000000000#32, []⟩ = .ok .nop := by decide
theorem test_decode_addt : decode ⟨0b00000001000000000000000000000000#32, []⟩ = .ok .addt := by decide
theorem test_decode_adde : decode ⟨0b00000010000000000000000000000000#32, []⟩ = .ok .adde := by decide
theorem test_decode_and : decode ⟨0b00000011000000000000000000000000#32, []⟩ = .ok .and := by decide
theorem test_decode_xor : decode ⟨0b00000100000000000000000000000000#32, []⟩ = .ok .xor := by decide
/-- LEN = 000000010. -/
theorem test_decode_lda :
    decode ⟨0b00010000000000000000000000000010#32, [0x30#32, 0x78#32]⟩ = .ok (.lda [0x30#32, 0x78#32]) := by decide
theorem test_decode_ldb :
    decode ⟨0b00010001000000000000000000000001#32, [0x31#32]⟩ = .ok (.ldb [0x31#32]) := by decide
/-- U = 1110, FPOL = 01, TC = 00000001, NS = 100000001. -/
theorem test_decode_lcfg_random :
    decode ⟨0b00100000111001000000010100000001#32, [0xFFFFFFFF#32]⟩ = .ok (.lcfg 14 257 [0xFFFFFFFF#32] .random) := by
  decide
/-- U = 0001, FPOL = 10, TC = 00000000, NS = 000000011; FLEN = 1. -/
theorem test_decode_lcfg_custom :
    decode ⟨0b00100000000110000000000000000011#32, [1#32, 0x31#32]⟩ = .ok (.lcfg 1 3 [] (.custom [0x31#32])) := by
  decide
/-- U = 1010. -/
theorem test_decode_step : decode ⟨0b00100001101000000000000000000000#32, []⟩ = .ok (.step 10) := by decide
/-- U = 1111, BE = 1. -/
theorem test_decode_run_budget :
    decode ⟨0b00100010111100000000000000000001#32, [0xFFFFFFFF#32]⟩ = .ok (.run 15 (some 0xFFFFFFFF#32)) := by decide
theorem test_decode_run : decode ⟨0b00100010001100000000000000000000#32, []⟩ = .ok (.run 3 none) := by decide

/-! Illegal packets: vectors V-E7 to V-E10, V-E22, V-E23, V-E30 to V-E32, and a byte stream that is no packet. -/

theorem test_decode_VE7 : decode ⟨0x10000003#32, [0x30#32, 0x31#32]⟩ = .error .payloadLength := by decide
theorem test_decode_VE8 : decode ⟨0x05000000#32, []⟩ = .error .undefinedOpcode := by decide
theorem test_decode_VE9 : decode ⟨0x01000001#32, []⟩ = .error .mustBeZero := by decide
theorem test_decode_VE10 : decode ⟨0x00000000#32, [0#32]⟩ = .error .payloadLength := by decide
theorem test_decode_VE22 : decode ⟨0x200C0804#32, [4#32, 3#32]⟩ = .error .reservedFill := by decide
theorem test_decode_VE23 : decode ⟨0x20000A04#32, [4#32, 3#32]⟩ = .error .mustBeZero := by decide
theorem test_decode_VE30 : decode ⟨0x22000001#32, []⟩ = .error .payloadLength := by decide
theorem test_decode_VE31 : decode ⟨0x22000000#32, [5#32]⟩ = .error .payloadLength := by decide
theorem test_decode_VE32 : decode ⟨0x21000001#32, []⟩ = .error .mustBeZero := by decide
/-- FLEN of 2 with one character (R61). -/
theorem test_decode_short_fill : decode ⟨0x20080404#32, [4#32, 2#32, 0x31#32]⟩ = .error .payloadLength := by decide
theorem test_decode_half_word : decodeBytes [0#8, 0#8] = .error .byteCount := by decide
/-- R42: `STEP 0`, least-significant byte first. -/
theorem test_decode_bytes : decodeBytes [0x00#8, 0x00#8, 0x00#8, 0x21#8] = .ok (.step 0) := by decide
/-- R63: no header selects two rows: the rows differ in the opcode, which every mask covers. -/
theorem test_rows_disjoint :
    opcodeMap.Pairwise (fun r r' => r.matchH &&& 0xFF000000#32 ≠ r'.matchH &&& 0xFF000000#32) ∧
      ∀ r ∈ opcodeMap, r.maskH &&& 0xFF000000#32 = 0xFF000000#32 := by decide

/-! ### Small states -/

/-- The state after a command; the old one if it has no next state. -/
def after (i : Instr) (s : State) : State :=
  match exec i s with
  | .next t => t
  | _ => s

/-- A string of digits as characters. -/
def word8 (v : Nat) : BitString := BitString.ofNat 8 v

/-- A and B holding two 8-bit values, ERR holding an old code. -/
def both (x y : Nat) : State := { State.reset.withOperands (word8 x) (word8 y) with err := 7#8 }

/-- `LCFG 0, 4, [4, 3], ALLONES` as an instance (P3): TAPS = cells 2 and 3. -/
def fresh4 : Lfsr := Lfsr.fresh 4 [2, 3] [true, true, true, true]

/-- The reset state with the given instances. -/
def withLfsrs (ls : List Lfsr) : State := { State.reset with lfsrs := ls }

/-- Instance 0 of a state; the reset instance if there is none. -/
def lfsr0 (s : State) : Lfsr := s.lfsrs.headD Lfsr.reset

/-! ### The arithmetic unit: V-A2, V-A14, V-A16, V-A19, V-B1, V-E1 to V-E3 -/

theorem test_addt_VA2 : (after .addt (both 0xFF 0x01)).r = ⟨true, word8 0x00⟩ ∧ (after .addt (both 0xFF 0x01)).passes = 1 := by
  decide
theorem test_addt_VA14 :
    (after .addt (State.reset.withOperands (BitString.ofNat 4 0b1001) (BitString.ofNat 4 0b1010))).r =
      ⟨true, BitString.ofNat 4 0b0011⟩ := by decide
theorem test_adde_VA2 : (after .adde (both 0xFF 0x01)).r = ⟨true, word8 0x01⟩ ∧ (after .adde (both 0xFF 0x01)).passes = 2 := by
  decide
theorem test_adde_VA16 :
    (after .adde (State.reset.withOperands (BitString.ofNat 16 0x1234) (BitString.ofNat 16 0xF00F))).r =
      ⟨true, BitString.ofNat 16 0x0244⟩ := by decide
theorem test_and_VB1 : (after .and (both 0xF0 0xAA)).r = ⟨true, word8 0xA0⟩ ∧ (after .and (both 0xF0 0xAA)).passes = 0 := by
  decide
theorem test_xor_VB1 : (after .xor (both 0xF0 0xAA)).r = ⟨true, word8 0x5A⟩ ∧ (after .xor (both 0xF0 0xAA)).err = 0#8 := by
  decide
theorem test_addt_VE1 : exec .addt State.reset = .next { State.reset with err := 9#8 } := rfl
/-- V-E3: A = `0101`, B = `00000001`. -/
theorem test_xor_VE3 :
    (after .xor (State.reset.withOperands (BitString.ofNat 4 5) (word8 1))).err = 1#8 := by decide

/-! ### The host interface: V-E4 to V-E6, V-E11 and the worked examples of R97, R99 -/

theorem test_nop_VE11 : (after .nop { State.reset with err := 11#8 }) = State.reset := by decide
/-- R97: `LDA "0101"`: the worked example. -/
theorem test_lda : (after (.lda [0x30#32, 0x31#32, 0x30#32, 0x31#32]) State.reset).a = ⟨true, BitString.ofNat 4 5⟩ := by decide
theorem test_lda_VE6 : (after (.lda [0x30#32, 0x31#32, 0x32#32]) (both 5 1)) = { both 5 1 with err := 2#8 } := by decide
theorem test_ldb_VE5 : (after (.ldb (List.replicate 65 0x30#32)) State.reset).err = 6#8 := by decide
/-- R98: `LDB "01x1"` raises InvalidDigit; `LDB "0011"` keeps its leading zeros. -/
theorem test_ldb : (after (.ldb [0x30#32, 0x30#32, 0x31#32, 0x31#32]) State.reset).b = ⟨true, BitString.ofNat 4 3⟩ := by decide
/-- R99: READ 0x03 and READ 0x04 after `LDA "0101"`. -/
theorem test_read_a :
    let s := State.reset.loadA (BitString.ofNat 4 5)
    s.readReg 0x03#8 = .number 4 ∧ s.readReg 0x04#8 = .bits [false, true, false, true] := by decide
/-- R66: empty and reserved reads right after reset; an instance u >= NLFSR reads 0. -/
theorem test_read_reset :
    State.reset.readReg 0x08#8 = .bits [] ∧ State.reset.readReg 0x0F#8 = .word 0#32 ∧
      State.reset.readReg 0x13#8 = .bits [] ∧ State.reset.readReg 0x20#8 = .word 0#32 := by decide
/-- P5, after line 7: ERR = 5 with A and B loaded reads STATUS 0x0B. -/
theorem test_status_P5 : ({ both 5 3 with err := 5#8 } : State).status = 0x0000000B#32 := by decide

/-! ### The LFSR unit: R91's and R92's worked examples, V-E12 to V-E29, V-L1, V-L20 to V-L24 -/

/-- R91: TAPMASK = `00011101`, STAGES = `11111111`, LSTATUS = 0x101. -/
theorem test_lcfg :
    let l := lfsr0 (after (.lcfg 0 8 [8#32, 6#32, 5#32, 4#32] .allOnes) State.reset)
    l.tapmask = [false, false, false, true, true, true, false, true] ∧ l.stages = List.replicate 8 true ∧
      l.lstatus = 0x101#32 := by decide
/-- V-E13: the first 4 of 5 characters; V-E14's fifth character is checked. -/
theorem test_lcfg_VE13_VE14 :
    (lfsr0 (after (.lcfg 0 4 [4#32, 3#32] (.custom [0x31#32, 0x30#32, 0x30#32, 0x31#32, 0x31#32])) State.reset)).stages =
        [true, false, false, true] ∧
      (after (.lcfg 0 4 [4#32, 3#32] (.custom [0x31#32, 0x30#32, 0x30#32, 0x31#32, 0x78#32])) State.reset).err = 2#8 := by
  decide
/-- R92: SEQ = `0`, STAGES = `0111`. -/
theorem test_step :
    let l := lfsr0 (after (.step 0) (withLfsrs [fresh4]))
    l.seq = [false] ∧ l.stages = [false, true, true, true] ∧ l.fpv = false := by decide
/-- V-L19, cycle 4: FP = `0001` captured with no comparison; cycle 19 sets REP (V-L24: REPLEN stays 19 on cycle 20). -/
theorem test_step_VL19 :
    let l4 := lfsr0 (after (.step 0) (withLfsrs [fresh4.cycles 3]))
    let l20 := lfsr0 (after (.step 0) (withLfsrs [fresh4.cycles 19]))
    l4.fp = [false, false, false, true] ∧ l4.fpv = true ∧ l4.rep = false ∧ l20.replen = 19 ∧
      l20.stages = [false, true, false, false] := by decide
/-- V-L1: RUN to repetition. -/
theorem test_run_VL1 :
    let l := lfsr0 (after (.run 0 none) (withLfsrs [fresh4]))
    l.replen = 19 ∧ l.period = 15 ∧ l.lastrun = 19 ∧ l.stages = [true, false, false, false] ∧ l.lstatus = 0x31F#32 := by decide
/-- V-L20 and V-L22: budgets of 18 and 0. -/
theorem test_run_VL20_VL22 :
    let l18 := lfsr0 (after (.run 0 (some 18#32)) (withLfsrs [fresh4]))
    let l0 := lfsr0 (after (.run 0 (some 0#32)) (withLfsrs [fresh4]))
    l18.lastrun = 18 ∧ l18.stages = [false, false, false, true] ∧ l18.lstatus = 0x20B#32 ∧ l0.lstatus = 0x109#32 := by decide

/-! ### Steps, READ, reset and the checksums -/

/-- P3, line 5: READ of id 0x18 gives PERIOD = 15. -/
theorem test_step_read :
    step ((withLfsrs [fresh4.cycles 19]).present (.read 0x18#8)) =
      .next { withLfsrs [fresh4.cycles 19] with reply := some (.number 15) } := rfl
/-- V-E8 as a step, and the table's word of `STEP 1` as the first packet after reset (V-E29). -/
theorem test_step_illegal : step (State.reset.withFetchWord 32 0x05000000) = .next { State.reset with err := 11#8 } := rfl
theorem test_step_VE29 : step (State.reset.withFetchWord 32 0x21100000) = .next { State.reset with err := 12#8 } := rfl
theorem test_table_word : decodeTableWord 32 0x10000002 = some (.lda [0#32, 0#32]) := by decide
theorem test_step_reset :
    step ((withLfsrs [fresh4]).present .reset) = .next State.reset := rfl

/-- V-C13, on 8 bits, and V-C7. -/
theorem test_not_VC13 :
    ∃ t, pseudoNot (chars [false, false, false, true, false, false, false, true]) State.reset =
      .value [true, true, true, false, true, true, true, false] t := ⟨_, by rfl⟩
theorem test_csum_VC7 : pseudoCsum [] State.reset = .failed 3#8 State.reset := rfl
/-- R67: `LCFG 0, 4, [4, 3], CUSTOM "1001"`, its text and its packet; READ SEQLEN[0]. -/
theorem test_assembler :
    let line := Asm.lcfg 0 4 [4, 3] (.custom ['1', '0', '0', '1'])
    line.transaction = .issue ⟨0x20080804#32, [4#32, 3#32, 4#32, 0x31#32, 0x30#32, 0x30#32, 0x31#32]⟩ ∧
      (Asm.read (.lfsr 0 .seqlen)).transaction = .read 0x14#8 := by decide
/-- The spelling of R67's register name. -/
theorem test_assembler_text : (Asm.read (.lfsr 0 .seqlen)).text = "READ SEQLEN[0]" := by rfl

/-! ### Witnesses of the encoding statements

Each theorem below is named for the statement whose hypotheses it meets, all together, in one concrete case; a statement
with several clauses has a case for each, at a boundary where the clause has one. -/

/-- DecodeOfEncode, at the largest fields. -/
theorem witness_DecodeOfEncode : (Instr.lcfg 15 511 (List.replicate 255 1#32) .random).wf = true := test_wf_lcfg_255_taps

/-- EncodeOfDecode and HeaderSelectsOneRow. -/
theorem witness_EncodeOfDecode : decode ⟨0x22F00001#32, [0xFFFFFFFF#32]⟩ = .ok (.run 15 (some 0xFFFFFFFF#32)) := by decide

/-- LegalPacketsAreTheOpcodeMaps: a packet that meets all three conditions, and one that fails each. -/
theorem witness_LegalPackets :
    (∃ row ∈ opcodeMap, row.selects 0x20080404#32 = true) ∧
    bits 0x20080404#32 19 18 ≠ 3 ∧
    [4#32, 1#32, 0x31#32].length = expectedPayload 0x20080404#32 (fun k => [4#32, 1#32, 0x31#32].getD k 0#32) ∧
    (∀ row ∈ opcodeMap, row.selects 0x23000000#32 = false) ∧
    (bits 0x200C0400#32 31 24 = 0x20 ∧ bits 0x200C0400#32 19 18 = 3) ∧
    [4#32].length ≠ expectedPayload 0x20080404#32 (fun k => [4#32].getD k 0#32) := by decide

/-- IllegalPacketOnlyWritesErr. -/
theorem witness_IllegalPacket :
    (State.reset.present (.issue ⟨0xFF000000#32, []⟩)).pending = .issue ⟨0xFF000000#32, []⟩ :: [] ∧
      decode ⟨0xFF000000#32, []⟩ = .error .undefinedOpcode := by decide

/-- ByteStreamIsLeastSignificantFirst: the last byte of the second word. -/
theorem witness_ByteStream : [0x22000001#32, 0x12345678#32][1]? = some 0x12345678#32 ∧ 3 < 4 := by decide

/-! ### Witnesses of the statements about steps and about the whole machine -/

/-- StepPerformsDecodedCommand. -/
theorem witness_StepPerformsDecodedCommand :
    (State.reset.present (.issue ⟨0x21000000#32, []⟩)).pending = .issue ⟨0x21000000#32, []⟩ :: [] ∧
      decode ⟨0x21000000#32, []⟩ = .ok (.step 0) := by decide

/-- ReadWritesNoRegister, ResetTransactionClears and WaitsForTheHost. -/
theorem witness_transactions :
    ((both 1 2).present (.read 0x01#8)).pending = .read 0x01#8 :: [] ∧
      ((both 1 2).present .reset).pending = .reset :: [] ∧ (both 1 2).pending = [] := by decide

/-- ErrorWritesOnlyErr: STEP on an instance that is not configured. -/
theorem witness_ErrorWritesOnlyErr :
    (State.reset.present (.issue ⟨0x21000000#32, []⟩)).pending = .issue ⟨0x21000000#32, []⟩ :: [] ∧
      step (State.reset.present (.issue ⟨0x21000000#32, []⟩)) = .next { State.reset with err := 10#8 } ∧
      ({ State.reset with err := 10#8 } : State).err ≠ 0#8 := ⟨rfl, rfl, by decide⟩

/-- OnlyListedErrorsAreRaised, UnitsAreIsolated (no unit) and WhoWritesWhat (R and PASSES written). -/
theorem witness_commands_without_unit :
    exec .addt (both 1 2) = .next { both 1 2 with r := ⟨true, word8 3⟩, passes := 1, err := 0#8 } ∧
      unitOf .addt = none ∧ (⟨true, word8 3⟩ : VecReg) ≠ (both 1 2).r := ⟨rfl, rfl, by decide⟩

/-- UnitsAreIsolated (unit 1 of two, 0 left alone) and WhoWritesWhat (CFG = 1 before and after). -/
theorem witness_commands_with_unit :
    exec (.step 1) (withLfsrs [fresh4, fresh4]) = .next (withLfsrs [fresh4, fresh4.cycle]) ∧
      unitOf (.step 1) = some 1 ∧ (0 : Nat) ≠ (1 : Fin 16).val ∧ fresh4.cfg = true := ⟨rfl, rfl, by decide, rfl⟩

/-- WhoWritesWhat: A and B written. -/
theorem witness_WhoWritesWhat_loads :
    (after (.lda [0x31#32]) State.reset).a ≠ State.reset.a ∧ (after (.ldb [0x31#32]) State.reset).b ≠ State.reset.b := by decide

/-- An instance that never repeats: it puts out ones and its fingerprint is a zero. No run reaches it. -/
def stuck1 : Lfsr :=
  { Lfsr.fresh 1 [0] [true] with seq := [true], fp := [false], fpv := true }

/-- FaultMeansNoRepetitionEver, and the fault of CommandsComplete. -/
theorem witness_FaultMeansNoRepetitionEver :
    (withLfsrs [stuck1]).lfsrs[(0 : Fin 16).val]? = some stuck1 ∧ 1 ≤ stuck1.n ∧ stuck1.stages.length = stuck1.n ∧
      exec (.run 0 none) (withLfsrs [stuck1]) = .fault .runNeverRepeats := ⟨rfl, by decide, rfl, rfl⟩

/-- IndependentCommandsCommute: an arithmetic and an LFSR command, and two instances, both drawing. -/
theorem witness_IndependentCommandsCommute :
    unitOf .nop ≠ unitOf (.step 0) ∧
      exec .nop (withLfsrs [fresh4]) = .next (withLfsrs [fresh4]) ∧
      exec (.step 0) (withLfsrs [fresh4]) = .next (withLfsrs [fresh4.cycle]) ∧
      unitOf (.lcfg 0 1 [1#32] .random) ≠ unitOf (.lcfg 1 1 [1#32] .random) ∧
      (∃ s1 t, exec (.lcfg 0 1 [1#32] .random) (withLfsrs [fresh4, fresh4]) = .next s1 ∧
        exec (.lcfg 1 1 [1#32] .random) s1 = .next t) :=
  ⟨by decide, rfl, rfl, by decide, _, _, rfl, rfl⟩

/-! ### Witnesses of the statements about the arithmetic unit -/

/-- ArithmeticErrors: A invalid, B invalid, lengths that differ. -/
theorem witness_ArithmeticErrors :
    State.reset.a.valid = false ∧ (State.reset.loadA (word8 1)).b.valid = false ∧
      (let s := State.reset.withOperands (BitString.ofNat 7 1) (word8 1)
       s.a.valid = true ∧ s.b.valid = true ∧ s.a.vec.len ≠ s.b.vec.len) := by decide

/-- PassAddsExactly, at the largest operands. -/
theorem witness_PassAddsExactly : 255 < 2 ^ 8 ∧ (pass 255 255 8) = (254, 1) := by decide

/-- AddtAddsModulo, AddeClosedForm, AddePassesAndTermination, AndIsBitwise, XorIsBitwise: valid operands of one length. -/
theorem witness_valid_operands :
    (both 0xFE 0x01).a.valid = true ∧ (both 0xFE 0x01).b.valid = true ∧
      (both 0xFE 0x01).a.vec.len = (both 0xFE 0x01).b.vec.len ∧ 1 ≤ (both 0xFE 0x01).a.vec.len := by decide

/-- The clauses of AddeClosedForm and AddePassesAndTermination at their boundaries: sums 0, 1, 2^L - 1 (a multiple of
2^L - 1 that does not wrap) and 2^L, and 2^(L+1) - 2 (the largest); V-A1, V-A8, V-A2, V-A3. -/
theorem witness_AddeClosedForm_boundaries :
    (after .adde (both 0 0)).r.vec.val = 0 ∧ (after .adde (both 0 0)).passes = 1 ∧
      (after .adde (both 0 1)).r.vec.val = 1 ∧
      (after .adde (both 0xFE 0x01)).r.vec.val = 255 ∧ (after .adde (both 0xFE 0x01)).passes = 1 ∧
      (after .adde (both 0xFF 0x01)).r.vec.val = 1 ∧ (after .adde (both 0xFF 0x01)).passes = 2 ∧
      (after .adde (both 0xFF 0xFF)).r.vec.val = 255 ∧ (after .adde (both 0xFF 0xFF)).passes = 2 := by decide

/-- AddersCommuteAndAssociate: three operands of one length (both commands are in the list). -/
theorem witness_AddersCommuteAndAssociate :
    Instr.adde ∈ [Instr.addt, Instr.adde] ∧ (word8 1).len = (word8 2).len ∧ (word8 2).len = (word8 3).len := by decide

/-- AdderIdentities, and SameOperandTwice below and from 2^(L-1) on. -/
theorem witness_SameOperandTwice :
    1 ≤ (word8 0x7F).len ∧ (word8 0x7F).val ≠ 0 ∧ (word8 0x7F).val < 2 ^ ((word8 0x7F).len - 1) ∧
      2 ^ ((word8 0x80).len - 1) ≤ (word8 0x80).val := by decide

/-! ### Witnesses of the statements about the host interface -/

/-- NopOnlyClearsErr: its packet. -/
theorem witness_NopOnlyClearsErr : decode ⟨0x00000000#32, []⟩ = .ok .nop := by decide

/-- LdaLoadsTheString, LdbLoadsTheString, LoadedStringReadsBack: 1 and LMAX characters. -/
theorem witness_loads :
    (1 ≤ [0x31#32].length ∧ [0x31#32].length ≤ State.reset.params.lmax ∧ digitsOk [0x31#32]) ∧
      (1 ≤ (ones 64).length ∧ (ones 64).length ≤ State.reset.params.lmax ∧ digitsOk (ones 64)) := by
  simp only [digitsOk_iff]
  decide

/-- LoadErrors: 0 characters, LMAX + 1 characters, and LMAX characters of which the last is no digit. -/
theorem witness_LoadErrors :
    Instr.ldb [] ∈ [Instr.lda [], Instr.ldb []] ∧ ([] : List Word).length = 0 ∧
      State.reset.params.lmax < (ones 65).length ∧
      (1 ≤ (ones 63 ++ [0x2F#32]).length ∧ (ones 63 ++ [0x2F#32]).length ≤ State.reset.params.lmax ∧
        ¬ digitsOk (ones 63 ++ [0x2F#32])) := by
  simp only [not_digitsOk_iff]
  decide

/-- LfsrReadMap: the last unit id, absent; unit 0, present, its counters below a SEQLEN_BITS of 5. -/
theorem witness_LfsrReadMap :
    (14 < 15 ∧ State.reset.lfsrs.length ≤ 14) ∧
      (let s := { withLfsrs [fresh4.cycles 19] with params := { Config.defaults with seqlenBits := some 5 } }
       s.lfsrs[0]? = some (fresh4.cycles 19) ∧ s.params.seqlenBits = some 5 ∧
         (fresh4.cycles 19).seq.length < 2 ^ 5 ∧ (fresh4.cycles 19).replen < 2 ^ 5 ∧ (fresh4.cycles 19).lastrun < 2 ^ 5) := by
  decide

/-- PeriodReadFollowsReplenRead: REP = 1 with counters of no width, REPLEN 19 and N 4 (V-L1), and the last unit, REP = 0. -/
theorem witness_PeriodReadFollowsReplenRead :
    (withLfsrs [fresh4.cycles 19]).lfsrs[0]? = some (fresh4.cycles 19) ∧ (fresh4.cycles 19).rep = true ∧
      (withLfsrs [fresh4.cycles 19]).readReg 0x17#8 = .number 19 ∧ (fresh4.cycles 19).n ≤ 19 ∧
      (withLfsrs (List.replicate 15 fresh4)).lfsrs[14]? = some fresh4 ∧ fresh4.rep = false := by decide

/-! ### Witnesses of the statements about the LFSR unit -/

/-- LcfgConfigures: the smallest instance with a Random fill; the largest, with a Custom fill of exactly n characters and
the largest tap; AllOnes. -/
theorem witness_LcfgConfigures :
    ((0 : Fin 16).val < State.reset.lfsrs.length ∧ 1 ≤ (1 : Fin 512).val ∧ (32 : Fin 512).val ≤ State.reset.params.nmax) ∧
      (∀ w ∈ [1#32], 1 ≤ w.toInt ∧ w.toInt ≤ (1 : Fin 512).val) ∧ (∀ cs, Fill.random ≠ .custom cs) ∧
      (∀ w ∈ [32#32, 1#32], 1 ≤ w.toInt ∧ w.toInt ≤ (32 : Fin 512).val) ∧
      ((32 : Fin 512).val ≤ (ones 32).length ∧ digitsOk (ones 32)) ∧ (∀ cs, Fill.allOnes ≠ .custom cs) := by
  simp only [digitsOk_iff, List.forall_mem_cons, List.not_mem_nil, false_implies, implies_true, and_true]
  exact ⟨by decide, by decide, nofun, by decide, by decide, nofun⟩

/-- LcfgErrorsInOrder: one case for each clause, at its boundary: unit NLFSR; 0 and NMAX + 1 stages; no taps; taps 0, -1 and
n + 1; a fill of n - 1 characters; a fill of n characters with one that is no digit. -/
theorem witness_LcfgErrorsInOrder :
    ¬ (1 : Fin 16).val < State.reset.lfsrs.length ∧ (0 : Fin 16).val < State.reset.lfsrs.length ∧
      ¬ 1 ≤ (0 : Fin 512).val ∧ ¬ (33 : Fin 512).val ≤ State.reset.params.nmax ∧
      (1 ≤ (4 : Fin 512).val ∧ (4 : Fin 512).val ≤ State.reset.params.nmax) ∧
      ¬ (∀ w ∈ [0#32], 1 ≤ w.toInt ∧ w.toInt ≤ (4 : Fin 512).val) ∧
      ¬ (∀ w ∈ [0xFFFFFFFF#32], 1 ≤ w.toInt ∧ w.toInt ≤ (4 : Fin 512).val) ∧
      ¬ (∀ w ∈ [5#32], 1 ≤ w.toInt ∧ w.toInt ≤ (4 : Fin 512).val) ∧
      (∀ w ∈ [4#32], 1 ≤ w.toInt ∧ w.toInt ≤ (4 : Fin 512).val) ∧
      [0x31#32, 0x30#32, 0x30#32].length < (4 : Fin 512).val ∧
      ((4 : Fin 512).val ≤ [0x31#32, 0x30#32, 0x30#32, 0x78#32].length ∧ ¬ digitsOk [0x31#32, 0x30#32, 0x30#32, 0x78#32]) := by
  simp only [not_digitsOk_iff, List.forall_mem_singleton]
  decide

/-- StepPerformsOneCycle: a configured instance before cycle n, at cycle n, after it without and with a match, and after
REP is set (V-L19: cycles 1, 4, 5, 19, 20). Cycle 20 does not match; cycle 34 does, REP being 1 already. -/
theorem witness_StepPerformsOneCycle :
    ((withLfsrs [fresh4]).lfsrs[(0 : Fin 16).val]? = some fresh4 ∧ fresh4.cfg = true) ∧
      (fresh4.cycles 1).seq.length < fresh4.n ∧ (fresh4.cycles 4).seq.length = fresh4.n ∧
      (fresh4.n < (fresh4.cycles 5).seq.length ∧ (fresh4.cycles 5).seq.drop 1 ≠ (fresh4.cycles 4).fp) ∧
      ((fresh4.cycles 19).seq.drop 15 = (fresh4.cycles 18).fp ∧ (fresh4.cycles 18).rep = false) ∧
      ((fresh4.cycles 34).seq.drop 30 = (fresh4.cycles 33).fp ∧ (fresh4.cycles 33).rep = true) := by decide

/-- StepAndRunErrors: U = NLFSR, and an instance not configured. -/
theorem witness_StepAndRunErrors :
    State.reset.lfsrs.length ≤ (1 : Fin 16).val ∧ State.reset.lfsrs[(0 : Fin 16).val]? = some Lfsr.reset ∧
      Lfsr.reset.cfg = false := by decide

/-- RunWithBudget. -/
theorem witness_RunWithBudget :
    (withLfsrs [fresh4]).lfsrs[(0 : Fin 16).val]? = some fresh4 ∧ fresh4.cfg = true := by decide

/-- OutputRecurrence and PeriodIsTheLeastPeriod: the smallest instance, and the source's example (taps 8, 6, 5, 4). -/
theorem witness_PeriodIsTheLeastPeriod :
    (tapsOk 1 [0] ∧ [false].length = 1) ∧ (tapsOk 8 [3, 4, 5, 7] ∧ (List.replicate 8 true).length = 8) := by decide

/-! ### Witnesses of the statements that assume the invariant -/

/-- `k` cycles of `fresh4` meet the invariant of a configured instance, shown for the instances used below. -/
theorem configuredInv_of_checks {k : Nat} {l : Lfsr} (hl : l = fresh4.cycles k)
    (h : (1 ≤ l.n ∧ l.n ≤ 32) ∧ tapsOk l.n l.taps ∧ l.stages.length = l.n ∧ (l.fpv = true ↔ l.n ≤ l.seq.length) ∧
      (l.fpv = true → l.fp = l.seq.take l.n) ∧
      (l.rep = true → l.fpv = true ∧ l.n + 1 ≤ l.replen ∧ l.replen ≤ l.seq.length) ∧
      (l.n ≤ l.seq.length → ∀ i, i < l.n → l.stages[i]? = l.seq[l.seq.length - 1 - i]?) ∧
      (l.runrep = true → l.rep = true ∧ l.rundone = true) ∧ l.lastrun ≤ l.seq.length ∧
      l.seq.length = k ∧ l.n = 4 ∧ l.taps = [2, 3]) : l.ConfiguredInv 32 := by
  obtain ⟨h1, h2, h3, h4, h5, h6, h7, h8, h9, hk, hn, ht⟩ := h
  refine ⟨h1, h2, h3, h4, h5, h6, h7, ⟨h8, h9⟩, [true, true, true, true], by rw [hn]; rfl, ?_⟩
  rw [hk, hn, ht, hl]
  rfl

theorem configuredInv_initialized : fresh4.ConfiguredInv 32 := configuredInv_of_checks (k := 0) rfl (by decide)

theorem configuredInv_cycling : (fresh4.cycles 18).ConfiguredInv 32 := configuredInv_of_checks (k := 18) rfl (by decide)

theorem configuredInv_repeated : (fresh4.cycles 19).ConfiguredInv 32 := configuredInv_of_checks (k := 19) rfl (by decide)

/-- A block with A, B and R loaded and one instance in each state of R33. -/
def fourStates : State :=
  { after .addt (both 0xFF 0x02) with lfsrs := [Lfsr.reset, fresh4, fresh4.cycles 18, fresh4.cycles 19] }

theorem fourStates_inv : fourStates.Inv := by
  refine ⟨by decide, by decide, by decide, by decide, by decide, by decide, by decide, ?_⟩
  intro l hl
  simp only [fourStates, List.mem_cons, List.not_mem_nil, or_false] at hl
  rcases hl with rfl | rfl | rfl | rfl
  · exact ⟨fun _ => by decide, fun h => absurd h (by decide)⟩
  · exact ⟨fun h => absurd h (by decide), fun _ => configuredInv_initialized⟩
  · exact ⟨fun h => absurd h (by decide), fun _ => configuredInv_cycling⟩
  · exact ⟨fun h => absurd h (by decide), fun _ => configuredInv_repeated⟩

/-- RunWithoutBudgetEndsByRepetition, HistoryOnlyGrows, StepKeepsInvariant, EveryStepCompletes and the transitions of
LstateConditionsAndTransitions: instances Initialized, Cycling and Repeated of a state that meets the invariant. -/
theorem witness_configured_instances :
    (fourStates.lfsrs[(1 : Fin 16).val]? = some fresh4 ∧ fresh4.cfg = true ∧ fresh4.lstate = 1) ∧
      (fourStates.lfsrs[(2 : Fin 16).val]? = some (fresh4.cycles 18) ∧ (fresh4.cycles 18).cfg = true ∧
        (fresh4.cycles 18).lstate = 2 ∧ (fresh4.cycles 18).fpv = true) ∧
      (fourStates.lfsrs[(3 : Fin 16).val]? = some (fresh4.cycles 19) ∧ (fresh4.cycles 19).cfg = true ∧
        (fresh4.cycles 19).lstate = 3 ∧ (fresh4.cycles 19).rep = true) := by decide

/-- HistoryOnlyGrows: both commands complete; StepKeepsInvariant: a step completes. -/
theorem witness_HistoryOnlyGrows :
    (∃ t, exec (.step 2) fourStates = .next t) ∧ (∃ t, exec (.run 2 (some 1#32)) fourStates = .next t) ∧
      (∃ t, step fourStates = .next t) := ⟨⟨_, rfl⟩, ⟨_, rfl⟩, ⟨_, rfl⟩⟩

/-- LstateConditionsAndTransitions: the four conditions. -/
theorem witness_LstateConditions :
    Lfsr.reset.cfg = false ∧ (fresh4.cfg = true ∧ fresh4.seq = [] ∧ fresh4.rep = false) ∧
      ((fresh4.cycles 1).seq ≠ [] ∧ (fresh4.cycles 1).rep = false) ∧ (fresh4.cycles 19).rep = true := by decide

/-- ResetMeetsInvariant: the smallest and the largest parameters. -/
theorem witness_ResetMeetsInvariant :
    (⟨16, 8, none⟩ : Config.Params).Ok ∧ (⟨511, 511, some 32⟩ : Config.Params).Ok ∧ Config.defaults.Ok := by decide

/-! ### Witnesses of the statements about the checksums -/

/-- NotFlipsEveryBit, TwosAddsOneEndAround and IntegrityCheckGivesOne: each clause on 8 bits (V-C15, V-C16, V-C17, V-C20),
and each length that fails. -/
theorem witness_complements :
    (let x := chars [false, false, false, true, false, false, false, true]
     1 ≤ x.length ∧ x.length ≤ State.reset.params.lmax ∧ digitsOk x ∧ charsValue x = 17 ∧ charsValue x ≠ 2 ^ x.length - 1) ∧
      (digitsOk (ones 8) ∧ charsValue (ones 8) = 2 ^ (ones 8).length - 1) ∧
      (digitsOk (chars (zeros 8)) ∧ charsValue (chars (zeros 8)) = 0) ∧
      ¬ digitsOk [0x30#32, 0x31#32, 0x78#32, 0x31#32] ∧ ([] : List Word).length = 0 ∧
      State.reset.params.lmax < (ones 65).length := by
  simp only [digitsOk_iff]
  decide

/-- LrcNegatesTheSum and CsumFoldsEndAround: three words (V-C8), no word, and words of sum 0. -/
theorem witness_checksums :
    (let data := [chars [true, false, true, true, false, false, true, true], chars (zeros 8), ones 8]
     (∀ d ∈ data, d.length = 8 ∧ digitsOk d) ∧ data ≠ [] ∧ 1 ≤ (data.map charsValue).sum) ∧
      (∀ d ∈ [chars (zeros 8)], d.length = 8 ∧ digitsOk d) ∧ ([chars (zeros 8)].map charsValue).sum = 0 ∧
      (1 ≤ 8 ∧ 8 ≤ State.reset.params.lmax) := by
  simp only [digitsOk_iff, List.forall_mem_cons, List.not_mem_nil, false_implies, implies_true, and_true]
  decide

/-- ChecksumsStopAtTheFirstError: after one good word or none, a word of no characters, of LMAX + 1, with a character that is no
digit, and of L - 1 digits. -/
theorem witness_ChecksumsStopAtTheFirstError :
    (∀ d ∈ [ones 8], d.length = 8 ∧ digitsOk d) ∧ [ones 8] ≠ [] ∧ ([] : List Word).length = 0 ∧
      State.reset.params.lmax < (ones 65).length ∧
      (1 ≤ [0x78#32].length ∧ [0x78#32].length ≤ State.reset.params.lmax ∧ ¬ digitsOk [0x78#32]) ∧
      (1 ≤ (ones 7).length ∧ digitsOk (ones 7) ∧ (ones 7).length ≠ 8) ∧
      (∀ d ∈ ([] : List (List Word)), d.length = 8 ∧ digitsOk d) := by
  simp only [digitsOk_iff, List.forall_mem_singleton, List.not_mem_nil, false_implies, implies_true, and_true]
  decide

end Sys2Proof.Tests
end

section
/-! What a step does with the oldest pending transaction, and what an ISSUE of a legal packet does. -/

namespace Sys2Proof.Machine

/-- R44: the oldest pending transaction is taken off the queue and performed. -/
theorem step_of_pending_cons {s : State} {t : Transaction} {rest : List Transaction} (h : s.pending = t :: rest) :
    step s = transact t { s with pending := rest } := by
  simp only [step, h]

/-- R51: an ISSUE of a packet the decoder accepts performs the command it names. -/
theorem transact_issue_of_decode_ok {p : Packet} {i : Instr} (h : decode p = .ok i) (s : State) :
    transact (.issue p) s = exec i s := by
  simp only [transact, h]

/-- Settles O8: the step takes the ISSUE off the queue, and the ISSUE performs the decoded command. -/
theorem stepPerformsDecodedCommand : Obligations.StepPerformsDecodedCommand := by
  intro s p i rest hpending hdecode
  calc
    step s = transact (.issue p) { s with pending := rest } := step_of_pending_cons hpending
    _ = exec i { s with pending := rest } := transact_issue_of_decode_ok hdecode _

end Sys2Proof.Machine
end

section
/-! The derived registers STATUS, LSTATUS, LSTATE and PERIOD, each read field by field (10_state.md R24, R32, R33, R35). -/

namespace Sys2Proof.Machine

/-! ### STATUS (R24) -/

/-- Four flags in bits 0 to 3 of a word: each bit is its flag, and the word is below 2^4. -/
theorem statusBits_four (a b r e : Bool) :
    let w := BitVec.ofNat 32 (statusBit a 0 + statusBit b 1 + statusBit r 2 + statusBit e 3)
    w.getLsbD 0 = a ∧ w.getLsbD 1 = b ∧ w.getLsbD 2 = r ∧ w.getLsbD 3 = e ∧ w.toNat < 2 ^ 4 := by
  revert a b r e
  decide

@[simp] theorem State.errf_eq_true (s : State) : s.errf = true ↔ s.err ≠ 0#8 := by simp [State.errf]

/-- Settles O36: the four flags are bits 0 to 3, and a word below 2^4 has no bit from 4 on. -/
theorem statusLayout : Obligations.StatusLayout := by
  refine ⟨fun _ _ => rfl, fun s => ?_⟩
  obtain ⟨hav, hbv, hrv, herrf, hlt⟩ := statusBits_four s.a.valid s.b.valid s.r.valid s.errf
  refine ⟨hav, hbv, hrv, ?_, fun p hp => ?_⟩
  · rw [← State.errf_eq_true]
    exact iff_of_eq (congrArg (· = true) herrf)
  · exact Nat.testBit_lt_two_pow (hlt.trans_le (Nat.pow_le_pow_right two_pos hp))

/-! ### LSTATE (R33) -/

theorem Lfsr.lstate_of_unconfigured {l : Lfsr} (hc : l.cfg = false) : l.lstate = 0 := by simp [Lfsr.lstate, hc]

theorem Lfsr.lstate_initialized {l : Lfsr} (hc : l.cfg = true) (hs : l.seq = []) (hr : l.rep = false) : l.lstate = 1 := by
  simp [Lfsr.lstate, Lfsr.seqlen, hc, hs, hr]

theorem Lfsr.lstate_cycling {l : Lfsr} (hc : l.cfg = true) (hs : l.seq ≠ []) (hr : l.rep = false) : l.lstate = 2 := by
  simp [Lfsr.lstate, Lfsr.seqlen, hc, hs, hr]

theorem Lfsr.lstate_repeated {l : Lfsr} (hc : l.cfg = true) (hr : l.rep = true) : l.lstate = 3 := by
  simp [Lfsr.lstate, hc, hr]

/-- The three states of a configured instance. -/
theorem Lfsr.lstate_cases {l : Lfsr} (hc : l.cfg = true) :
    (l.lstate = 1 ∧ l.seq = [] ∧ l.rep = false) ∨ (l.lstate = 2 ∧ l.seq ≠ [] ∧ l.rep = false) ∨
      (l.lstate = 3 ∧ l.rep = true) := by
  cases hr : l.rep with
  | true => exact .inr (.inr ⟨lstate_repeated hc hr, rfl⟩)
  | false =>
    by_cases hs : l.seq = []
    · exact .inl ⟨lstate_initialized hc hs hr, hs, rfl⟩
    · exact .inr (.inl ⟨lstate_cycling hc hs hr, hs, rfl⟩)

theorem Lfsr.lstate_lt (l : Lfsr) : l.lstate < 4 := by
  cases hc : l.cfg with
  | false => simp [lstate_of_unconfigured hc]
  | true => obtain ⟨h, -⟩ | ⟨h, -⟩ | ⟨h, -⟩ := lstate_cases hc <;> simp [h]

/-! ### LSTATUS (R35) -/

/-- The low bits of LSTATUS as a number: the five flags. -/
def Lfsr.flags (l : Lfsr) : Nat :=
  statusBit l.cfg 0 + statusBit l.fpv 1 + statusBit l.rep 2 + statusBit l.rundone 3 + statusBit l.runrep 4

/-- Each of the five flags is its bit, and there is none from bit 5 on. -/
theorem Lfsr.flags_bits (l : Lfsr) :
    l.flags.testBit 0 = l.cfg ∧ l.flags.testBit 1 = l.fpv ∧ l.flags.testBit 2 = l.rep ∧
      l.flags.testBit 3 = l.rundone ∧ l.flags.testBit 4 = l.runrep ∧ l.flags < 2 ^ 5 := by
  unfold Lfsr.flags
  generalize l.cfg = c, l.fpv = f, l.rep = r, l.rundone = d, l.runrep = q
  revert c f r d q
  decide

/-- A bit of LSTATUS below bit 8 is a bit of the flags, and from there on a bit of LSTATE. -/
theorem Lfsr.lstatus_getLsbD {l : Lfsr} {p : Nat} (hp : p < 32) :
    l.lstatus.getLsbD p = if p < 8 then l.flags.testBit p else l.lstate.testBit (p - 8) := by
  obtain ⟨-, -, -, -, -, hlt⟩ := l.flags_bits
  have hsum : l.lstatus = BitVec.ofNat 32 (2 ^ 8 * l.lstate + l.flags) := by
    rw [Nat.add_comm, Nat.mul_comm]
    rfl
  rw [hsum, BitVec.getLsbD_ofNat, Nat.testBit_two_pow_mul_add _ (hlt.trans (by norm_num)), decide_eq_true hp,
    Bool.true_and]

theorem Lfsr.lstatus_getLsbD_flag {l : Lfsr} {p : Nat} (hp : p < 8) : l.lstatus.getLsbD p = l.flags.testBit p := by
  rw [lstatus_getLsbD (by omega), if_pos hp]

theorem Lfsr.lstatus_getLsbD_lstate {l : Lfsr} {p : Nat} (hp : p < 24) :
    l.lstatus.getLsbD (8 + p) = l.lstate.testBit p := by
  rw [lstatus_getLsbD (by omega), if_neg (by omega), Nat.add_sub_cancel_left]

/-- Bits 9..8 of LSTATUS are LSTATE. -/
theorem Lfsr.lstatus_lstate_field (l : Lfsr) : (l.lstatus.extractLsb' 8 2).toNat = l.lstate := by
  have hfield : l.lstatus.extractLsb' 8 2 = BitVec.ofNat 2 l.lstate := by
    refine BitVec.eq_of_getLsbD_eq fun i hi => ?_
    rw [BitVec.getLsbD_extractLsb', lstatus_getLsbD_lstate (by omega), BitVec.getLsbD_ofNat]
  rw [hfield, BitVec.toNat_ofNat, Nat.mod_eq_of_lt l.lstate_lt]

/-- No bit of LSTATUS stands from bit 10 on. -/
theorem Lfsr.lstatus_getLsbD_of_ge {l : Lfsr} {p : Nat} (hp : 10 ≤ p) : l.lstatus.getLsbD p = false := by
  by_cases h32 : p < 32
  · rw [lstatus_getLsbD h32, if_neg (by omega)]
    exact Nat.testBit_lt_two_pow (l.lstate_lt.trans_le (Nat.pow_le_pow_right two_pos (by omega : 2 ≤ p - 8)))
  · exact BitVec.getLsbD_of_ge _ _ (by omega)

/-- Settles O37: the flags stand below bit 5, LSTATE in bits 9..8, and every other bit is past one of the two. -/
theorem lstatusLayout : Obligations.LstatusLayout := by
  refine ⟨fun l hc hf hr hd hq => by simp [Lfsr.lstatus, Lfsr.lstate_of_unconfigured hc, statusBit, hc, hf, hr, hd, hq],
    fun l => ?_⟩
  obtain ⟨hcfg, hfpv, hrep, hdone, hrunrep, hlt⟩ := l.flags_bits
  refine ⟨?_, ?_, ?_, ?_, ?_, l.lstatus_lstate_field, fun p h5 h7 => ?_, fun p => Lfsr.lstatus_getLsbD_of_ge⟩
  all_goals rw [Lfsr.lstatus_getLsbD_flag (by omega)]
  · exact hcfg
  · exact hfpv
  · exact hrep
  · exact hdone
  · exact hrunrep
  · exact Nat.testBit_lt_two_pow (hlt.trans_le (Nat.pow_le_pow_right two_pos h5))

/-! ### PERIOD as a READ gives it (R32) -/

/-- Settles O59: the two ids name REPLEN and PERIOD, and what those read as follows from REP alone. -/
theorem periodReadFollowsReplenRead : Obligations.PeriodReadFollowsReplenRead := by
  intro s u l hu hl
  refine ⟨l.replenRead s.params u, l.periodRead s.params u, readReg_lfsrId hu hl .replen, readReg_lfsrId hu hl .period,
    Lfsr.periodRead_of_rep, Lfsr.reads_of_not_rep⟩

end Sys2Proof.Machine
end

section
/-! Which command writes which register (10_state.md R19 to R21, R25), and which error codes a command leaves (R101). -/

namespace Sys2Proof.Machine

/-! ### The errors of a command -/

/-- Only a Custom fill fails, and with one of two errors (R91). -/
theorem fillBits_error {n u k : Nat} {fill : Fill} {e : ErrorCode} (h : fillBits n u k fill = .error e) :
    (∃ cs, fill = .custom cs) ∧ (e = .fillTooShort ∨ e = .invalidDigit) := by
  cases fill with
  | allOnes => cases h
  | random => cases h
  | custom cs =>
    refine ⟨⟨cs, rfl⟩, ?_⟩
    simp only [fillBits] at h
    split at h
    · cases h; exact .inl rfl
    · split at h <;> cases h
      exact .inr rfl

/-- The errors LCFG can raise on an instance that is there: those R101 lists for it, InvalidUnit aside. -/
theorem configure_error {nmax : Nat} {u : Fin 16} {ns : Fin 512} {old : Lfsr} {taps : List Word} {fill : Fill}
    {e : ErrorCode} (h : configure nmax u old ns taps fill = .error e) : e ∈ errorsOf (.lcfg u ns taps fill) := by
  simp only [configure] at h
  split at h
  · cases h; cases fill <;> simp [errorsOf]
  split at h
  · cases h; cases fill <;> simp [errorsOf]
  split at h
  · cases h; cases fill <;> simp [errorsOf]
  split at h
  · rename_i hf
    cases h
    obtain ⟨⟨cs, rfl⟩, rfl | rfl⟩ := fillBits_error hf <;> simp [errorsOf]
  · cases h

/-- InvalidUnit is among the errors of every command on an instance (R101). -/
theorem invalidUnit_mem_errorsOf {i : Instr} {u : Fin 16} (hu : unitOf i = some u) :
    ErrorCode.invalidUnit ∈ errorsOf i := by
  cases i with
  | lcfg _ _ _ fill => cases fill <;> simp [errorsOf]
  | step => simp [errorsOf]
  | run => simp [errorsOf]
  | nop | addt | adde | and | xor | lda | ldb => cases hu

/-- An error of selecting an instance is InvalidUnit or NotConfigured (R92, R93). -/
theorem configured_error {s : State} {u : Nat} {e : ErrorCode} (h : s.configured u = .error e) :
    e = .invalidUnit ∨ e = .notConfigured := by
  obtain ⟨-, hs⟩ | ⟨_, -, -, hs⟩ | ⟨_, -, -, hs⟩ := configured_cases s u
  all_goals rw [hs] at h; cases h
  · exact .inl rfl
  · exact .inr rfl

/-- The code a command leaves is 0 or that of an error R101 lists for it. -/
theorem exec_err {i : Instr} {s t : State} (h : exec i s = .next t) :
    t.err = 0#8 ∨ ∃ e ∈ errorsOf i, t.err = e.code := by
  cases i with
  | nop | addt | adde | and | xor | lda | ldb =>
    obtain ⟨e, he, rfl⟩ | ⟨-, rfl⟩ | ⟨-, -, -, -, rfl⟩ | ⟨-, -, -, -, rfl⟩ | ⟨-, -, -, -, -, -, -, rfl⟩ :=
      exec_cases_of_no_unit rfl h
    · exact .inr ⟨e, he, rfl⟩
    all_goals exact .inl rfl
  | lcfg u ns taps fill =>
    obtain ⟨e, he, rfl⟩ | ⟨-, -, rfl⟩ := finish_next h
    · refine .inr ⟨e, ?_, rfl⟩
      split at he
      · cases he; exact invalidUnit_mem_errorsOf rfl
      · split at he
        · rename_i hc
          cases he
          exact configure_error hc
        · cases he
    · exact .inl rfl
  | step u =>
    obtain ⟨e, he, rfl⟩ | ⟨-, -, rfl⟩ := finish_next h
    · split at he
      · rename_i hs
        cases he
        exact .inr ⟨e, by obtain rfl | rfl := configured_error hs <;> simp [errorsOf], rfl⟩
      · cases he
    · exact .inl rfl
  | run u budget =>
    cases hs : s.configured u with
    | error e =>
      simp only [exec, execRun, hs, finish_error, Host.Outcome.next.injEq] at h
      exact .inr ⟨e, by obtain rfl | rfl := configured_error hs <;> simp [errorsOf], by simp [← h]⟩
    | ok l =>
      refine .inl ?_
      simp only [exec, execRun, hs] at h
      split at h
      · cases h; rfl
      · split at h <;> cases h
        rfl

/-! ### Who writes what -/

/-- A command on an instance writes no register of the arithmetic unit, and the instances but for its own stay. -/
theorem exec_frame_of_unit {i : Instr} {s t : State} {u : Fin 16} (hu : unitOf i = some u) (h : exec i s = .next t) :
    t.params = s.params ∧ t.a = s.a ∧ t.b = s.b ∧ t.r = s.r ∧ t.passes = s.passes ∧
      (t.lfsrs = s.lfsrs ∨ ∃ l l', s.lfsrs[u.val]? = some l ∧ t.lfsrs = s.lfsrs.set u.val l' ∧ l'.cfg = true) := by
  obtain ⟨e, rfl⟩ | ⟨l, hl, ⟨_, _, _, new, -, hconf, rfl⟩ | ⟨-, hc, rfl⟩ | ⟨_, k, -, hc, -, rfl⟩⟩ := exec_cases_of_unit hu h
  · exact ⟨rfl, rfl, rfl, rfl, rfl, .inl rfl⟩
  · obtain ⟨-, -, -, -, _, -, rfl⟩ := configure_ok hconf
    exact ⟨rfl, rfl, rfl, rfl, rfl, .inr ⟨l, _, hl, rfl, rfl⟩⟩
  · exact ⟨rfl, rfl, rfl, rfl, rfl, .inr ⟨l, _, hl, rfl, by simp [hc]⟩⟩
  · exact ⟨rfl, rfl, rfl, rfl, rfl, .inr ⟨l, _, hl, rfl, by simp [Lfsr.endRun, hc]⟩⟩

/-- CFG, once set, stays set when an instance of the list is replaced by a configured one. -/
theorem cfg_of_set_configured {ls : List Lfsr} {u v : Nat} {l l' new : Lfsr} (hnew : new.cfg = true)
    (hl : ls[v]? = some l) (hl' : (ls.set u new)[v]? = some l') (hc : l.cfg = true) : l'.cfg = true := by
  rw [List.getElem?_set] at hl'
  split at hl'
  · split at hl'
    · cases hl'; exact hnew
    · cases hl'
  · rw [hl] at hl'; cases hl'; exact hc

/-- Settles O20: a command of the arithmetic unit is a load, an arithmetic command or neither and leaves the instances
alone; a command on an instance leaves the arithmetic unit alone and leaves its instance configured. -/
theorem whoWritesWhat : Obligations.WhoWritesWhat := by
  intro i s t h
  cases hu : unitOf i with
  | none =>
    have hcfg : ∀ (u : Nat) (l l' : Lfsr), s.lfsrs[u]? = some l → s.lfsrs[u]? = some l' → l.cfg = true → l'.cfg = true := by
      rintro u l l' hl hl' hc
      cases hl.symm.trans hl'
      exact hc
    obtain ⟨e, -, rfl⟩ | ⟨-, rfl⟩ | ⟨cs, v, rfl, -, rfl⟩ | ⟨cs, v, rfl, -, rfl⟩ | ⟨hi, -, -, -, v, k, -, rfl⟩ :=
      exec_cases_of_no_unit hu h
    · exact ⟨by simp, by simp, by simp, hcfg⟩
    · exact ⟨by simp, by simp, by simp, hcfg⟩
    · exact ⟨fun _ => ⟨rfl, cs, rfl⟩, by simp, by simp, hcfg⟩
    · exact ⟨by simp, fun _ => ⟨rfl, cs, rfl⟩, by simp, hcfg⟩
    · exact ⟨by simp, by simp, fun _ => ⟨rfl, hi⟩, hcfg⟩
  | some u =>
    obtain ⟨-, ha, hb, hr, hp, hlfsrs⟩ := exec_frame_of_unit hu h
    refine ⟨by simp [ha], by simp [hb], by simp [hr, hp], fun v l l' hl hl' hc => ?_⟩
    obtain heq | ⟨-, new, -, heq, hnew⟩ := hlfsrs <;> rw [heq] at hl'
    · cases hl.symm.trans hl'
      exact hc
    · exact cfg_of_set_configured hnew hl hl' hc

end Sys2Proof.Machine
end

section
/-! The invariants of an LFSR instance (10_state.md R25 to R34, R36): what `k` cycles do, said once, and that a
configuration, a cycle and the end of a RUN keep `Lfsr.Inv`. -/

namespace Sys2Proof.Machine

/-! ### Many cycles, in closed form -/

/-- SEQ after `k` cycles: their outputs appended (R88). -/
theorem Lfsr.cycles_seq (l : Lfsr) (k : Nat) : (l.cycles k).seq = l.seq ++ (List.range k).map l.output := by
  induction k with
  | zero => simp
  | succ k ih => simp [Lfsr.cycles_succ, ih, List.range_succ, Lfsr.output]

@[simp] theorem Lfsr.cycles_seq_length (l : Lfsr) (k : Nat) : (l.cycles k).seq.length = l.seq.length + k := by
  simp [Lfsr.cycles_seq]

/-- STAGES after `k` cycles: the outputs, the latest first, then what is left of the old contents (R88, R89). -/
theorem Lfsr.cycles_stages_getElem? (l : Lfsr) {k i : Nat} (hi : i < l.n) :
    (l.cycles k).stages[i]? = if i < k then some (l.output (k - 1 - i)) else l.stages[i - k]? := by
  induction k generalizing i with
  | zero => simp
  | succ k ih =>
    rw [Lfsr.cycles_succ, Lfsr.cycle_stages, Lfsr.cycles_n]
    cases i with
    | zero => simp [Lfsr.output]
    | succ i =>
      rw [List.getElem?_cons_succ, List.getElem?_take_of_lt (by omega), ih (by omega)]
      simp only [Nat.add_lt_add_iff_right, Nat.add_sub_add_right, show k + 1 - 1 - (i + 1) = k - 1 - i by omega]

@[simp] theorem Lfsr.cycle_seq_length (l : Lfsr) : l.cycle.seq.length = l.seq.length + 1 := by simp

@[simp] theorem Lfsr.cycles_lastrun (l : Lfsr) (k : Nat) : (l.cycles k).lastrun = l.lastrun := by
  induction k with
  | zero => rfl
  | succ k ih => rw [Lfsr.cycles_succ, Lfsr.cycle_lastrun, ih]

/-! ### The fingerprint logic of one cycle -/

/-- What the end of a cycle can do: capture FP, detect a repetition, or neither (R88). -/
theorem Lfsr.cycle_cases (l : Lfsr) :
    (l.seq.length + 1 = l.n ∧ l.cycle = { l.shift with fp := l.shift.seq.take l.n, fpv := true }) ∨
    (l.n ≤ l.seq.length ∧ l.shift.seq.drop (l.seq.length + 1 - l.n) = l.fp ∧
      l.cycle = { l.shift with rep := true, replen := if l.rep then l.replen else l.seq.length + 1 }) ∨
    (l.seq.length + 1 ≠ l.n ∧ ¬ (l.n ≤ l.seq.length ∧ l.shift.seq.drop (l.seq.length + 1 - l.n) = l.fp) ∧
      l.cycle = l.shift) := by
  simpa [Lfsr.cycle, Nat.lt_succ_iff] using l.shift.detect_cases

/-- FPV is set by the capture and stays (R30). -/
theorem Lfsr.cycle_fpv_eq_true (l : Lfsr) : l.cycle.fpv = true ↔ l.seq.length + 1 = l.n ∨ l.fpv = true := by
  obtain ⟨hn, hc⟩ | ⟨hn, -, hc⟩ | ⟨hn, -, hc⟩ := l.cycle_cases
  · simp [hc, hn]
  · simp [hc, show l.seq.length + 1 ≠ l.n by omega]
  · simp [hc, hn]

/-- FP is written by the capture alone (R30). -/
theorem Lfsr.cycle_fp (l : Lfsr) :
    l.cycle.fp = if l.seq.length + 1 = l.n then (l.seq ++ [l.feedback]).take l.n else l.fp := by
  obtain ⟨hn, hc⟩ | ⟨hn, -, hc⟩ | ⟨hn, -, hc⟩ := l.cycle_cases
  · simp [hc, hn]
  · simp [hc, show l.seq.length + 1 ≠ l.n by omega]
  · simp [hc, hn]

/-- REP is set by a match of the last `n` outputs with FP, and stays (R31). -/
theorem Lfsr.cycle_rep_eq_true (l : Lfsr) :
    l.cycle.rep = true ↔
      l.rep = true ∨ (l.n ≤ l.seq.length ∧ (l.seq ++ [l.feedback]).drop (l.seq.length + 1 - l.n) = l.fp) := by
  obtain ⟨hn, hc⟩ | ⟨hn, hm, hc⟩ | ⟨-, hm, hc⟩ := l.cycle_cases
  · simp [hc, show ¬ l.n ≤ l.seq.length by omega]
  · rw [Lfsr.shift_seq] at hm
    simp [hc, hn, hm]
  · rw [Lfsr.shift_seq] at hm
    simp [hc, hm]

/-- REPLEN is SEQLEN at the first match, and stays (R31). -/
theorem Lfsr.cycle_replen {l : Lfsr} (h : l.cycle.rep = true) :
    l.cycle.replen = if l.rep then l.replen else l.seq.length + 1 := by
  obtain ⟨-, hc⟩ | ⟨-, -, hc⟩ | ⟨-, -, hc⟩ := l.cycle_cases <;> rw [hc] at h ⊢
  · rw [Lfsr.shift_rep] at h
    simp [h]
  · rw [Lfsr.shift_rep] at h
    simp [h]

/-! ### The history of an instance -/

/-- Two histories are equal when every register is, FP counting once FPV = 1 and REPLEN once REP = 1. -/
theorem Lfsr.history_eq_iff {l l' : Lfsr} :
    l.history = l'.history ↔
      l.cfg = l'.cfg ∧ l.n = l'.n ∧ l.taps = l'.taps ∧ l.stages = l'.stages ∧ l.seq = l'.seq ∧ l.fpv = l'.fpv ∧
        l.rep = l'.rep ∧ (l.fpv = true → l.fp = l'.fp) ∧ (l.rep = true → l.replen = l'.replen) := by
  simp only [Lfsr.history, Lfsr.mk.injEq, and_true]
  constructor
  · rintro ⟨hc, hn, ht, hst, hs, hfp, hfpv, hrep, hlen⟩
    refine ⟨hc, hn, ht, hst, hs, hfpv, hrep, fun hv => ?_, fun hr => ?_⟩
    · simpa [← hfpv, hv] using hfp
    · simpa [← hrep, hr] using hlen
  · rintro ⟨hc, hn, ht, hst, hs, hfpv, hrep, hfp, hlen⟩
    refine ⟨hc, hn, ht, hst, hs, ?_, hfpv, hrep, ?_⟩
    · rw [← hfpv]
      split
      · exact hfp ‹_›
      · rfl
    · rw [← hrep]
      split
      · exact hlen ‹_›
      · rfl

/-- A cycle follows the history alone, once FPV is 1 wherever FP is compared. -/
theorem Lfsr.history_cycle_congr {l l' : Lfsr} (h : l.history = l'.history) (hv : l.n ≤ l.seq.length → l.fpv = true) :
    l.cycle.history = l'.cycle.history := by
  obtain ⟨hc, hn, ht, hst, hs, hfpv, hrep, hfp, hlen⟩ := Lfsr.history_eq_iff.mp h
  have hfb : l.feedback = l'.feedback := by simp only [Lfsr.feedback, ht, hst]
  have hrep' : l.cycle.rep = l'.cycle.rep := by
    rw [Bool.eq_iff_iff, Lfsr.cycle_rep_eq_true, Lfsr.cycle_rep_eq_true, ← hrep, ← hn, ← hs, ← hfb]
    exact or_congr_right (and_congr_right fun hle => by rw [hfp (hv hle)])
  refine Lfsr.history_eq_iff.mpr ⟨by simp [hc], by simp [hn], by simp [ht], by simp [hfb, hst, hn], by simp [hs, hfb], ?_,
    hrep', fun hset => ?_, fun hset => ?_⟩
  · rw [Bool.eq_iff_iff, Lfsr.cycle_fpv_eq_true, Lfsr.cycle_fpv_eq_true, hfpv, hn, hs]
  · rw [Lfsr.cycle_fp, Lfsr.cycle_fp, ← hn, ← hs, ← hfb]
    split
    · rfl
    · exact hfp (((Lfsr.cycle_fpv_eq_true l).mp hset).resolve_left ‹_›)
  · rw [Lfsr.cycle_replen hset, Lfsr.cycle_replen (hrep' ▸ hset), ← hrep, ← hs]
    split
    · exact hlen ‹_›
    · rfl

/-- An instance with the history of `k` cycles from some fill, k = SEQLEN, holds its latest outputs in STAGES (R36 (3)). -/
theorem Lfsr.stages_eq_seq_of_replay {l : Lfsr} {fill : List Bool} {i : Nat}
    (h : l.history = ((Lfsr.fresh l.n l.taps fill).cycles l.seq.length).history) (hi : i < l.n)
    (hk : i < l.seq.length) : l.stages[i]? = l.seq[l.seq.length - 1 - i]? := by
  obtain ⟨-, -, -, hst, hs, -⟩ := Lfsr.history_eq_iff.mp h
  have hseq : l.seq = (List.range l.seq.length).map (Lfsr.fresh l.n l.taps fill).output := by
    rw [Lfsr.cycles_seq] at hs
    exact hs
  have hlt : l.seq.length - 1 - i < l.seq.length := by omega
  calc
    l.stages[i]? = some ((Lfsr.fresh l.n l.taps fill).output (l.seq.length - 1 - i)) := by
      rw [hst, (Lfsr.fresh l.n l.taps fill).cycles_stages_getElem? hi, if_pos hk]
    _ = l.seq[l.seq.length - 1 - i]? := by
      conv_rhs => rw [hseq]
      simp [hlt]

/-! ### The invariants of a configured instance (R36) -/

/-- An instance just configured meets the invariants of a configured one (R91). -/
theorem Lfsr.ConfiguredInv.of_history_fresh {nmax : Nat} {l : Lfsr} {fill : List Bool} (hn : 1 ≤ l.n ∧ l.n ≤ nmax)
    (ht : tapsOk l.n l.taps) (hfill : fill.length = l.n) (hhist : l.history = (Lfsr.fresh l.n l.taps fill).history)
    (hrunrep : l.runrep = false) (hlastrun : l.lastrun = 0) : l.ConfiguredInv nmax := by
  obtain ⟨-, -, -, hst, hs, hfpv, hrep, -, -⟩ := Lfsr.history_eq_iff.mp hhist
  have hlen : l.seq.length = 0 := by simp [hs, Lfsr.fresh, Lfsr.reset]
  have hfpv : l.fpv = false := hfpv
  have hrep : l.rep = false := hrep
  exact {
    stageCount := hn
    taps := ht
    stagesLength := hst ▸ hfill
    fpv := iff_of_false (by simp [hfpv]) (by omega)
    fingerprint := by simp [hfpv]
    repeated := by simp [hrep]
    window := fun hle => by omega
    runStatus := by simp [hrunrep, hlastrun]
    replay := ⟨fill, hfill, by rw [hlen]; exact hhist⟩ }

/-- NMAX may be taken to be `n`: nothing but the stage count depends on it. -/
theorem Lfsr.fresh_configuredInv {n : Nat} {taps : List Nat} {fill : List Bool} (hn : 1 ≤ n) (ht : tapsOk n taps)
    (hfill : fill.length = n) : (Lfsr.fresh n taps fill).ConfiguredInv n :=
  .of_history_fresh ⟨hn, le_rfl⟩ ht hfill rfl rfl rfl

/-- A cycle keeps the invariants (R36). -/
theorem Lfsr.ConfiguredInv.cycle {nmax : Nat} {l : Lfsr} (h : l.ConfiguredInv nmax) : l.cycle.ConfiguredInv nmax := by
  obtain ⟨fill, hfill, hreplay⟩ := h.replay
  have hreplay' : l.cycle.history = ((Lfsr.fresh l.cycle.n l.cycle.taps fill).cycles l.cycle.seq.length).history := by
    simpa [Lfsr.cycles_succ] using Lfsr.history_cycle_congr hreplay h.fpv.mpr
  have hfpv : l.cycle.fpv = true ↔ l.cycle.n ≤ l.cycle.seq.length := by
    rw [Lfsr.cycle_fpv_eq_true, h.fpv, Lfsr.cycle_n, Lfsr.cycle_seq_length]
    omega
  exact {
    stageCount := by simpa using h.stageCount
    taps := by simpa using h.taps
    stagesLength := by
      have := h.stageCount
      rw [Lfsr.cycle_stages, Lfsr.cycle_n, List.length_cons, List.length_take, h.stagesLength]
      omega
    fpv := hfpv
    fingerprint := fun hset => by
      rw [Lfsr.cycle_fp, Lfsr.cycle_n, Lfsr.cycle_seq]
      split
      · rfl
      · have hv := ((Lfsr.cycle_fpv_eq_true l).mp hset).resolve_left ‹_›
        rw [h.fingerprint hv, List.take_append_of_le_length (h.fpv.mp hv)]
    repeated := fun hset => by
      have hle : l.n ≤ l.seq.length := by
        obtain hr | ⟨hle, -⟩ := (Lfsr.cycle_rep_eq_true l).mp hset
        · exact h.fpv.mp (h.repeated hr).1
        · exact hle
      refine ⟨hfpv.mpr (by rw [Lfsr.cycle_n, Lfsr.cycle_seq_length]; omega), ?_⟩
      rw [Lfsr.cycle_replen hset, Lfsr.cycle_n, Lfsr.cycle_seq_length]
      split
      · obtain ⟨-, hlow, hhigh⟩ := h.repeated ‹_›
        omega
      · omega
    window := fun hle i hi => Lfsr.stages_eq_seq_of_replay hreplay' hi (by omega)
    runStatus := by
      obtain ⟨hrun, hlast⟩ := h.runStatus
      refine ⟨fun hq => ?_, by rw [Lfsr.cycle_lastrun, Lfsr.cycle_seq_length]; omega⟩
      obtain ⟨hr, hd⟩ := hrun (by simpa using hq)
      exact ⟨l.cycle_rep_of_rep hr, by simpa using hd⟩
    replay := ⟨fill, by simpa using hfill, hreplay'⟩ }

theorem Lfsr.ConfiguredInv.cycles {nmax : Nat} {l : Lfsr} (h : l.ConfiguredInv nmax) (k : Nat) :
    (l.cycles k).ConfiguredInv nmax := by
  induction k with
  | zero => exact h
  | succ k ih => exact ih.cycle

/-- The end of a RUN writes its status and no more, which keeps the invariants (R34, R93). -/
theorem Lfsr.ConfiguredInv.endRun {nmax e : Nat} {l : Lfsr} (h : l.ConfiguredInv nmax) (he : e ≤ l.seq.length) :
    (l.endRun e).ConfiguredInv nmax where
  stageCount := h.stageCount
  taps := h.taps
  stagesLength := h.stagesLength
  fpv := h.fpv
  fingerprint := h.fingerprint
  repeated := h.repeated
  window := h.window
  runStatus := ⟨fun hr => ⟨hr, rfl⟩, he⟩
  replay := h.replay

/-- The tap set of LCFG is a set of cells: the checks leave at least one tap, and every one in range (R27, R91). -/
theorem tapsOk_tapSet {n : Nat} {taps : List Word} (hne : taps ≠ []) (hgood : ∀ w ∈ taps, badTap n w = false) :
    tapsOk n (tapSet n taps) := by
  refine ⟨?_, tapSet_ascending n taps, fun i hi => (mem_tapSet.mp hi).1⟩
  obtain ⟨w, hw⟩ := List.exists_mem_of_ne_nil taps hne
  have hrange := hgood w hw
  simp only [badTap, decide_eq_false_iff_not, not_or, not_le, not_lt] at hrange
  exact List.ne_nil_of_mem (mem_tapSet.mpr ⟨by omega, w, hw, by omega⟩ : (w.toInt - 1).toNat ∈ tapSet n taps)

/-- LCFG leaves its instance with the invariants of a configured one (R91). -/
theorem Lfsr.ConfiguredInv.of_configure {nmax u n : Nat} {old l : Lfsr} {taps : List Word} {fill : Fill}
    (h : configure nmax u old n taps fill = .ok l) : l.ConfiguredInv nmax := by
  obtain ⟨h1, hmax, hne, hgood, cells, hcells, rfl⟩ := configure_ok h
  exact .of_history_fresh (fill := cells) ⟨h1, hmax⟩ (tapsOk_tapSet hne hgood) (fillBits_length hcells) rfl rfl rfl

/-! ### Configured or not -/

theorem Lfsr.ConfiguredInv.inv {nmax : Nat} {l : Lfsr} (h : l.ConfiguredInv nmax) (hc : l.cfg = true) : l.Inv nmax :=
  ⟨fun hf => absurd (hc.symm.trans hf) (by decide), fun _ => h⟩

/-- Reset leaves an instance unconfigured, every flag 0 (R115). -/
theorem Lfsr.inv_assertReset (nmax : Nat) (l : Lfsr) : l.assertReset.Inv nmax :=
  ⟨fun _ => ⟨rfl, rfl, rfl, rfl, rfl⟩, fun hc => absurd hc Bool.false_ne_true⟩

theorem Lfsr.inv_reset (nmax : Nat) : Lfsr.reset.Inv nmax := Lfsr.reset.inv_assertReset nmax

end Sys2Proof.Machine
end

section
/-! The invariant of the whole block (10_state.md R36 and the ranges of R19 to R34): it holds after reset, and every
write of a command, and with it every step, keeps it. -/

namespace Sys2Proof.Machine

/-! ### At most two passes (R21, R79) -/

/-- The carry of a first pass, added in, leaves no second carry (R79). -/
theorem pass_wrap_carry_eq_zero (x y len : Nat) : (pass (pass x y len).1 (pass x y len).2 len).2 = 0 := by
  have hfirst := pass_conserves x y len
  have hcarry := pass_carry_le_one x y len
  generalize (pass x y len).1 = r at *
  generalize (pass x y len).2 = w at *
  have hsecond := pass_conserves r w len
  have hpos : 0 < 2 ^ len := Nat.two_pow_pos len
  have hx := Nat.mod_lt x hpos
  have hy := Nat.mod_lt y hpos
  have hr := Nat.mod_lt r hpos
  have hr' := Nat.mod_le r (2 ^ len)
  have hw := Nat.mod_le w (2 ^ len)
  have hbound : r % 2 ^ len + w % 2 ^ len < 2 ^ len := by
    obtain rfl | rfl : w = 0 ∨ w = 1 := by omega
    · omega
    · omega
  by_contra hne
  have := Nat.le_mul_of_pos_left (2 ^ len) (Nat.pos_of_ne_zero hne)
  omega

/-- ADDE takes one pass, or two when the first one wraps (R79). -/
theorem endAround_passes (len x y : Nat) : (endAround len x y).2 = if (pass x y len).2 = 0 then 1 else 2 := by
  have hzero := pass_wrap_carry_eq_zero x y len
  rw [endAround, foldBack]
  split
  · rfl
  · rw [← Prod.eta (pass _ _ len), hzero, foldBack_zero_wrap]

/-- An arithmetic command leaves PASSES at most 2 (R21). -/
theorem exec_passes_le_two {i : Instr} {s t : State} (hi : i ∈ arithmeticCommands) (hs : s.passes ≤ 2)
    (h : exec i s = .next t) : t.passes ≤ 2 := by
  have hop : ∃ op, (∀ s, exec i s = arithmetic op s) ∧ ∀ len x y, (op len x y).2 ≤ 2 := by
    simp only [arithmeticCommands, List.mem_cons, List.not_mem_nil, or_false] at hi
    obtain rfl | rfl | rfl | rfl := hi
    · exact ⟨fun len x y => ((pass x y len).1, 1), fun _ => rfl, fun _ _ _ => Nat.le_add_left 1 1⟩
    · refine ⟨endAround, fun _ => rfl, fun len x y => ?_⟩
      rw [endAround_passes]
      split <;> decide
    · exact ⟨fun _ x y => (x &&& y, 0), fun _ => rfl, fun _ _ _ => Nat.zero_le 2⟩
    · exact ⟨fun _ x y => (x ^^^ y, 0), fun _ => rfl, fun _ _ _ => Nat.zero_le 2⟩
  obtain ⟨op, hexec, hle⟩ := hop
  rw [hexec s] at h
  obtain ⟨-, h'⟩ | ⟨-, -, -, h'⟩ | ⟨-, -, -, h'⟩ := arithmetic_cases op s <;> rw [h'] at h <;> cases h
  · exact hs
  · exact hs
  · exact hle _ _ _

/-! ### The writes of a command -/

theorem errCodeOk_zero : errCodeOk 0#8 := by decide

/-- EmptyInput alone is raised by no packet (R101). -/
theorem errCodeOk_code {e : ErrorCode} (he : e ≠ .emptyInput) : errCodeOk e.code := by
  cases e with
  | emptyInput => exact absurd rfl he
  | _ => decide

theorem emptyInput_notMem_errorsOf (i : Instr) : ErrorCode.emptyInput ∉ errorsOf i := by
  cases i with
  | lcfg _ _ _ fill => cases fill <;> simp [errorsOf]
  | _ => simp [errorsOf]

/-- ERR after a command holds a code a packet can leave (R23, R101). -/
theorem exec_errCodeOk {i : Instr} {s t : State} (h : exec i s = .next t) : errCodeOk t.err := by
  obtain h0 | ⟨e, he, hcode⟩ := exec_err h
  · exact h0 ▸ errCodeOk_zero
  · rw [hcode]
    exact errCodeOk_code fun heq => emptyInput_notMem_errorsOf i (heq ▸ he)

/-- A loaded string has a length in [1, LMAX] (R97, R98). -/
theorem loadOperand_len {lmax : Nat} {cs : List Word} {v : BitString} (h : loadOperand lmax cs = .ok v) :
    1 ≤ v.len ∧ v.len ≤ lmax := by
  unfold loadOperand at h
  split at h
  · cases h
  · split at h <;> cases h
    simp only [BitString.ofBits_len, List.length_map]
    omega

theorem VecReg.inRange_reset (lmax : Nat) : VecReg.reset.InRange lmax := fun h => absurd h Bool.false_ne_true

namespace State.Inv

variable {s : State} (h : s.Inv)
include h

theorem raise {e : ErrorCode} (he : errCodeOk e.code) : (s.raise e).Inv := { h with err := he }

theorem succeed : s.succeed.Inv := { h with err := errCodeOk_zero }

theorem loadA {v : BitString} (hv : 1 ≤ v.len ∧ v.len ≤ s.params.lmax) : (s.loadA v).Inv := { h with a := fun _ => hv }

theorem loadB {v : BitString} (hv : 1 ≤ v.len ∧ v.len ≤ s.params.lmax) : (s.loadB v).Inv := { h with b := fun _ => hv }

theorem setResult {v : BitString} {k : Nat} (hv : 1 ≤ v.len ∧ v.len ≤ s.params.lmax) (hk : k ≤ 2) :
    (s.setResult v k).Inv :=
  { h with r := fun _ => hv, passes := ⟨hk, fun hf => absurd hf.symm Bool.false_ne_true⟩ }

theorem setLfsr {u : Nat} {l : Lfsr} (hl : l.Inv s.params.nmax) : (s.setLfsr u l).Inv :=
  { h with
    units := by simpa using h.units
    lfsrs := fun l' hl' => (List.mem_or_eq_of_mem_set hl').elim (h.lfsrs l') fun heq => heq ▸ hl }

/-- The host's queue and the latest reply are no registers. -/
theorem withHost (pending : List Transaction) (reply : Option ReadValue) :
    ({ s with pending := pending, reply := reply } : State).Inv := { h with }

theorem assertReset : s.assertReset.Inv where
  params := h.params
  units := by simpa using h.units
  a := VecReg.inRange_reset _
  b := VecReg.inRange_reset _
  r := VecReg.inRange_reset _
  passes := ⟨Nat.zero_le 2, fun _ => rfl⟩
  err := errCodeOk_zero
  lfsrs := by
    intro l' hl'
    obtain ⟨l, -, rfl⟩ := List.mem_map.mp hl'
    exact l.inv_assertReset _

/-- A configured instance of a state of the invariant. -/
theorem configured {u : Nat} {l : Lfsr} (hl : s.lfsrs[u]? = some l) (hc : l.cfg = true) :
    l.ConfiguredInv s.params.nmax :=
  (h.lfsrs l (List.mem_of_getElem? hl)).configured hc

end State.Inv

/-- Settles O50: every flag and valid bit is 0, and ERR and PASSES are 0. -/
theorem resetMeetsInvariant : Obligations.ResetMeetsInvariant := by
  intro p nlfsr hp hone hmax
  exact {
    params := hp
    units := by simpa [State.resetWith] using And.intro hone hmax
    a := VecReg.inRange_reset _
    b := VecReg.inRange_reset _
    r := VecReg.inRange_reset _
    passes := ⟨Nat.zero_le 2, fun _ => rfl⟩
    err := errCodeOk_zero
    lfsrs := fun l hl => List.eq_of_mem_replicate hl ▸ Lfsr.inv_reset _ }

/-! ### Every step -/

/-- Every command keeps the invariant: each of its writes does. -/
theorem exec_keeps_inv {i : Instr} {s t : State} (h : s.Inv) (hx : exec i s = .next t) : t.Inv := by
  have herr := exec_errCodeOk hx
  cases hu : unitOf i with
  | none =>
    obtain ⟨e, -, rfl⟩ | ⟨-, rfl⟩ | ⟨_, v, -, hv, rfl⟩ | ⟨_, v, -, hv, rfl⟩ | ⟨hi, ha, -, -, v, k, hlen, rfl⟩ :=
      exec_cases_of_no_unit hu hx
    · exact h.raise herr
    · exact h.succeed
    · exact (h.loadA (loadOperand_len hv)).succeed
    · exact (h.loadB (loadOperand_len hv)).succeed
    · exact (h.setResult (hlen ▸ h.a ha) (exec_passes_le_two hi h.passes.1 hx)).succeed
  | some u =>
    obtain ⟨e, rfl⟩ | ⟨l, hl, ⟨_, _, _, new, -, hconf, rfl⟩ | ⟨-, hc, rfl⟩ | ⟨_, k, -, hc, -, rfl⟩⟩ :=
      exec_cases_of_unit hu hx
    · exact h.raise herr
    · obtain ⟨-, -, -, -, _, -, hnew⟩ := configure_ok hconf
      exact (h.setLfsr ((Lfsr.ConfiguredInv.of_configure hconf).inv (by rw [hnew]))).succeed
    · exact (h.setLfsr ((h.configured hl hc).cycle.inv (by simpa using hc))).succeed
    · have hrun : ((l.cycles k).endRun k).ConfiguredInv s.params.nmax :=
        ((h.configured hl hc).cycles k).endRun (by simp)
      exact (h.setLfsr (hrun.inv (by simpa [Lfsr.endRun] using hc))).succeed

theorem transact_keeps_inv {tr : Transaction} {s t : State} (h : s.Inv) (hx : transact tr s = .next t) : t.Inv := by
  cases tr with
  | issue p =>
    cases hd : decode p with
    | ok i => exact exec_keeps_inv h (transact_issue_of_decode_ok hd s ▸ hx)
    | error why =>
      simp only [transact, hd, Host.Outcome.next.injEq] at hx
      exact hx ▸ h.raise (errCodeOk_code (by decide))
  | read id => cases hx; exact h.withHost _ _
  | reset => cases hx; exact h.assertReset

/-- Settles O51: with nothing pending a step changes nothing, and else it performs a transaction, which keeps the
invariant. -/
theorem stepKeepsInvariant : Obligations.StepKeepsInvariant := by
  intro s t h hx
  cases hp : s.pending with
  | nil =>
    simp only [step, hp, Host.Outcome.next.injEq] at hx
    exact hx ▸ h
  | cons tr rest =>
    rw [step_of_pending_cons hp] at hx
    exact transact_keeps_inv (h.withHost rest s.reply) hx

end Sys2Proof.Machine
end

section
/-! How an instance changes under STEP and RUN (10_state.md R33, R36 (4); 43_lfsr.md R94). -/

namespace Sys2Proof.Machine

/-- `l'` extends the history of `l` under the same configuration: SEQ only grows, and what was captured or detected
stays (R36 (4)). -/
abbrev Lfsr.Extends (l l' : Lfsr) : Prop :=
  l.seq <+: l'.seq ∧ (l.fpv = true → l'.fpv = true ∧ l'.fp = l.fp) ∧
    (l.rep = true → l'.rep = true ∧ l'.replen = l.replen) ∧ l'.cfg = l.cfg ∧ l'.n = l.n ∧ l'.taps = l.taps

theorem Lfsr.Extends.refl (l : Lfsr) : l.Extends l :=
  ⟨List.prefix_rfl, fun h => ⟨h, rfl⟩, fun h => ⟨h, rfl⟩, rfl, rfl, rfl⟩

theorem Lfsr.Extends.trans {l l' l'' : Lfsr} (h : l.Extends l') (h' : l'.Extends l'') : l.Extends l'' := by
  obtain ⟨hseq, hfp, hrep, hc, hn, ht⟩ := h
  obtain ⟨hseq', hfp', hrep', hc', hn', ht'⟩ := h'
  refine ⟨hseq.trans hseq', fun h => ?_, fun h => ?_, hc'.trans hc, hn'.trans hn, ht'.trans ht⟩
  · obtain ⟨hv, heq⟩ := hfp h
    exact ⟨(hfp' hv).1, (hfp' hv).2.trans heq⟩
  · obtain ⟨hr, heq⟩ := hrep h
    exact ⟨(hrep' hr).1, (hrep' hr).2.trans heq⟩

/-- A cycle extends the history: FP is captured once, at SEQLEN = N (R36 (1)). -/
theorem Lfsr.ConfiguredInv.extends_cycle {nmax : Nat} {l : Lfsr} (h : l.ConfiguredInv nmax) : l.Extends l.cycle := by
  refine ⟨by simp, fun hv => ?_, fun hr => ?_, by simp, by simp, by simp⟩
  · have hle := h.fpv.mp hv
    exact ⟨(Lfsr.cycle_fpv_eq_true l).mpr (.inr hv), by rw [Lfsr.cycle_fp, if_neg (by omega)]⟩
  · have hr' := l.cycle_rep_of_rep hr
    exact ⟨hr', by rw [Lfsr.cycle_replen hr', if_pos hr]⟩

theorem Lfsr.ConfiguredInv.extends_cycles {nmax : Nat} {l : Lfsr} (h : l.ConfiguredInv nmax) (k : Nat) :
    l.Extends (l.cycles k) := by
  induction k with
  | zero => exact .refl l
  | succ k ih => exact ih.trans (h.cycles k).extends_cycle

/-- STEP on a configured instance performs one cycle (R92). -/
theorem exec_step_configured {s : State} {u : Fin 16} {l : Lfsr} (hl : s.lfsrs[u.val]? = some l) (hc : l.cfg = true) :
    exec (.step u) s = .next (s.setLfsr u l.cycle).succeed := by
  simp [exec, execStep, State.configured, hl, hc]

/-- Settles O48: the instance after STEP or RUN is the old one after some cycles, but for its run status. -/
theorem historyOnlyGrows : Obligations.HistoryOnlyGrows := by
  intro s t u l budget i hi h hl hc hx
  have hconf := h.configured hl hc
  have hlt : u.val < s.lfsrs.length := (List.getElem?_eq_some_iff.mp hl).1
  suffices ∃ l', t.lfsrs = s.lfsrs.set u.val l' ∧ l.Extends l' by
    obtain ⟨l', ht, hseq, hfp, hrep, hc', hn, htaps⟩ := this
    exact ⟨l', by rw [ht, List.getElem?_set_self hlt], hseq, hfp, hrep, hc'.trans hc, hn, htaps⟩
  simp only [List.mem_cons, List.not_mem_nil, or_false] at hi
  obtain rfl | rfl := hi
  · rw [exec_step_configured hl hc] at hx
    cases hx
    exact ⟨l.cycle, rfl, hconf.extends_cycle⟩
  · obtain ⟨k, -, -, -, hrun⟩ := exec_run_configured budget hl hc
    rw [hrun] at hx
    split at hx
    · cases hx
    · cases hx
      exact ⟨(l.cycles k).endRun k, rfl, hconf.extends_cycles k⟩

/-- The first cycle of an instance detects nothing: a repetition needs N + 1 outputs, and N is at least 1 (R36 (2)). -/
theorem Lfsr.ConfiguredInv.cycle_rep_of_initialized {nmax : Nat} {l : Lfsr} (h : l.ConfiguredInv nmax)
    (hs : l.seq = []) : l.cycle.rep = false := by
  have hn := h.stageCount.1
  by_contra hr
  obtain ⟨-, hlow, hhigh⟩ := h.cycle.repeated (by simpa using hr)
  rw [Lfsr.cycle_n] at hlow
  rw [Lfsr.cycle_seq_length, hs, List.length_nil] at hhigh
  omega

/-- After a cycle a configured instance is Cycling or Repeated, by REP alone: it has an output. -/
theorem Lfsr.lstate_cycle {l : Lfsr} (hc : l.cfg = true) : l.cycle.lstate = if l.cycle.rep then 3 else 2 := by
  have hc' : l.cycle.cfg = true := by simpa using hc
  split
  · exact lstate_repeated hc' ‹_›
  · exact lstate_cycling hc' (by simp) (Bool.eq_false_iff.mpr ‹_›)

theorem Lfsr.seq_eq_nil_of_lstate {l : Lfsr} (hc : l.cfg = true) (h : l.lstate = 1) : l.seq = [] := by
  obtain ⟨-, hs, -⟩ | ⟨h2, -⟩ | ⟨h3, -⟩ := lstate_cases hc
  · exact hs
  · omega
  · omega

theorem Lfsr.rep_of_lstate {l : Lfsr} (hc : l.cfg = true) (h : l.lstate = 3) : l.rep = true := by
  obtain ⟨h1, -⟩ | ⟨h2, -⟩ | ⟨-, hr⟩ := lstate_cases hc
  · omega
  · omega
  · exact hr

/-- Settles O49: the conditions are those of LSTATE, and STEP is one cycle, which outputs a bit and keeps REP. -/
theorem lstateConditionsAndTransitions : Obligations.LstateConditionsAndTransitions := by
  refine ⟨fun l => ⟨Lfsr.lstate_of_unconfigured, Lfsr.lstate_initialized, Lfsr.lstate_cycling, Lfsr.lstate_repeated⟩, ?_⟩
  intro s u l h hl hc
  have hlt : u.val < s.lfsrs.length := (List.getElem?_eq_some_iff.mp hl).1
  refine ⟨_, l.cycle, exec_step_configured hl hc, by simp [hlt], fun h1 => ?_, fun _ => Lfsr.lstate_cycle hc, fun h3 => ?_⟩
  · rw [Lfsr.lstate_cycle hc, (h.configured hl hc).cycle_rep_of_initialized (Lfsr.seq_eq_nil_of_lstate hc h1)]
    rfl
  · rw [Lfsr.lstate_cycle hc, l.cycle_rep_of_rep (Lfsr.rep_of_lstate hc h3), if_pos rfl]

end Sys2Proof.Machine
end

section
/-! Repetition and the period of the output sequence (10_state.md R32, 43_lfsr.md R90): the cells up to the largest tap
follow an invertible map on finitely many contents, so the outputs are purely periodic, and a match of the last `n`
outputs with the first `n` means that the distance is a multiple of the least period. -/

namespace Sys2Proof.Machine

open Function (minimalPeriod IsPeriodicPt)

/-! ### The feedback as a sum over the taps -/

/-- The XOR of the cells at the tap indices (R88, R16). -/
def tapSum (taps : List Nat) (cell : Nat → Bool) : Bool := taps.foldl (fun acc i => acc ^^ cell i) false

theorem Lfsr.feedback_eq_tapSum (l : Lfsr) : l.feedback = tapSum l.taps fun i => l.stages.getD i false := rfl

theorem tapSum_append_singleton (taps : List Nat) (i : Nat) (cell : Nat → Bool) :
    tapSum (taps ++ [i]) cell = (tapSum taps cell ^^ cell i) := by
  simp [tapSum]

/-- The sum reads the cells at the taps and no other. -/
theorem tapSum_congr {taps : List Nat} {cell cell' : Nat → Bool} (h : ∀ i ∈ taps, cell i = cell' i) :
    tapSum taps cell = tapSum taps cell' := by
  induction taps using List.reverseRecOn with
  | nil => rfl
  | append_singleton taps i ih =>
    rw [tapSum_append_singleton, tapSum_append_singleton, ih fun j hj => h j (by simp [hj]), h i (by simp)]

theorem tapSum_false (taps : List Nat) : tapSum taps (fun _ => false) = false := by
  induction taps using List.reverseRecOn with
  | nil => rfl
  | append_singleton taps i ih => rw [tapSum_append_singleton, ih]; rfl

/-! ### The window: the cells up to the largest tap -/

/-- The contents of cells 0 to `M`. -/
abbrev Window (M : Nat) := Fin (M + 1) → Bool

/-- Cell `i` of a window; 0 outside it. -/
def Window.cell {M : Nat} (w : Window M) (i : Nat) : Bool := if h : i < M + 1 then w ⟨i, h⟩ else false

/-- One cycle of a window: the feedback enters at the front, the last cell leaves (R88). -/
def Window.advance {M : Nat} (taps : List Nat) (w : Window M) : Window M :=
  Fin.cons (tapSum taps w.cell) (Fin.init w)

/-- Cells 0 to `M` of an instance. -/
def Lfsr.window (l : Lfsr) (M : Nat) : Window M := fun i => l.stages.getD i false

theorem Window.cell_of_lt {M i : Nat} (w : Window M) (hi : i < M + 1) : w.cell i = w ⟨i, hi⟩ := dif_pos hi

theorem Lfsr.window_cell {l : Lfsr} {M i : Nat} (hi : i ≤ M) : (l.window M).cell i = l.stages.getD i false :=
  Window.cell_of_lt _ (Nat.lt_succ_of_le hi)

/-- The window of zeros. -/
def Window.zeros (M : Nat) : Window M := fun _ => false

/-- The window of zeros stays. -/
theorem Window.advance_zeros (taps : List Nat) (M : Nat) :
    Window.advance taps (Window.zeros M) = Window.zeros M := by
  have hcell : (Window.zeros M).cell = fun _ => false := by
    funext i
    simp [Window.cell, Window.zeros]
  rw [Window.advance, hcell, tapSum_false]
  funext i
  cases i using Fin.cases with
  | zero => rfl
  | succ i => rfl

theorem Window.minimalPeriod_advance_zeros (taps : List Nat) (M : Nat) :
    minimalPeriod (Window.advance taps) (Window.zeros M) = 1 :=
  Function.minimalPeriod_eq_one_iff_isFixedPt.mpr (Window.advance_zeros taps M)

section
variable {taps : List Nat} {M : Nat} (hM : M ∈ taps) (hmax : ∀ i ∈ taps, i ≤ M)

section
variable (hasc : taps.Pairwise (· < ·))
include hM hmax hasc

/-- An ascending list of taps is the taps below the largest one, then that one. -/
theorem taps_eq_append_max : ∃ lower, taps = lower ++ [M] ∧ ∀ i ∈ lower, i < M := by
  obtain ⟨lower, last, rfl⟩ := (List.eq_nil_or_concat' taps).resolve_left (List.ne_nil_of_mem hM)
  obtain ⟨-, -, hbelow⟩ := List.pairwise_append.mp hasc
  have hlower : ∀ i ∈ lower, i < last := fun i hi => hbelow i hi last (List.mem_singleton_self last)
  have hlast : last = M := by
    obtain hm | hm := List.mem_append.mp hM
    · exact absurd (hmax last (by simp)) (Nat.not_le.mpr (hlower M hm))
    · exact (List.mem_singleton.mp hm).symm
  exact ⟨lower, by rw [hlast], hlast ▸ hlower⟩

/-- The cycle of the window is invertible, its last cell being tapped: the cell that leaves is the feedback less the
other taps (R90). -/
theorem Window.advance_injective : Function.Injective (Window.advance taps : Window M → Window M) := by
  intro w w' h
  obtain ⟨lower, rfl, hlower⟩ := taps_eq_append_max hM hmax hasc
  obtain ⟨hfeedback, hinit⟩ := Fin.cons_inj.mp h
  have hcell : ∀ i ∈ lower, w.cell i = w'.cell i := by
    intro i hi
    have hlt := hlower i hi
    rw [w.cell_of_lt (by omega), w'.cell_of_lt (by omega)]
    exact congrFun hinit ⟨i, hlt⟩
  have hlast : w (Fin.last M) = w' (Fin.last M) := by
    rw [tapSum_append_singleton, tapSum_append_singleton, tapSum_congr hcell, Bool.xor_right_inj,
      w.cell_of_lt M.lt_succ_self, w'.cell_of_lt M.lt_succ_self] at hfeedback
    exact hfeedback
  rw [← Fin.snoc_init_self w, ← Fin.snoc_init_self w', hinit, hlast]

/-- Every window comes back: the cycle is invertible, and there are finitely many windows (R90). -/
theorem Window.minimalPeriod_advance_pos (w : Window M) : 1 ≤ minimalPeriod (Window.advance taps) w :=
  Function.minimalPeriod_pos_of_mem_periodicPts ((Window.advance_injective hM hmax hasc).mem_periodicPts w)

/-- A window of m = M + 1 cells comes back within 2^m - 1 cycles: zeros stay, and no other window passes through zeros
(R90). -/
theorem Window.minimalPeriod_advance_le (w : Window M) : minimalPeriod (Window.advance taps) w ≤ 2 ^ (M + 1) - 1 := by
  have hinj := Window.advance_injective hM hmax hasc
  by_cases hw : w = Window.zeros M
  · rw [hw, Window.minimalPeriod_advance_zeros]
    have := Nat.one_lt_two_pow (Nat.succ_ne_zero M)
    omega
  · have hmaps : ∀ k ∈ Finset.range (minimalPeriod (Window.advance taps) w),
        (Window.advance taps)^[k] w ∈ Finset.univ.erase (Window.zeros M) := by
      intro k _
      refine Finset.mem_erase.mpr ⟨fun hk => hw (hinj.iterate k ?_), Finset.mem_univ _⟩
      rw [hk, Function.iterate_fixed (Window.advance_zeros taps M)]
    have hcard := Finset.card_le_card_of_injOn _ hmaps
      (by simpa [Set.InjOn] using Function.iterate_injOn_Iio_minimalPeriod (f := Window.advance taps) (x := w))
    simpa [Finset.card_erase_of_mem] using hcard

end

/-! ### The window of an instance -/

section
variable {l : Lfsr} (htaps : l.taps = taps) (hn : M < l.n)
include hmax htaps hn

/-- A cycle of an instance is a cycle of its window: no cell past the largest tap is read (R88). -/
theorem Lfsr.window_cycle : l.cycle.window M = Window.advance taps (l.window M) := by
  funext i
  cases i using Fin.cases with
  | zero =>
    have hfeedback : l.feedback = tapSum taps (l.window M).cell := by
      rw [Lfsr.feedback_eq_tapSum, htaps]
      exact tapSum_congr fun i hi => (Lfsr.window_cell (hmax i hi)).symm
    simp [Lfsr.window, Window.advance, hfeedback]
  | succ i =>
    have hi := i.isLt
    simp [Lfsr.window, Window.advance, Fin.init, show i.val < l.n - 1 by omega]

theorem Lfsr.window_cycles (k : Nat) : (l.cycles k).window M = (Window.advance taps)^[k] (l.window M) := by
  induction k with
  | zero => rfl
  | succ k ih =>
    rw [Lfsr.cycles_succ, Lfsr.window_cycle hmax (by simpa using htaps) (by simpa using hn), ih,
      Function.iterate_succ_apply']

omit hn in
/-- An output is the feedback of the window of its cycle. -/
theorem Lfsr.output_eq_tapSum (j : Nat) : l.output j = tapSum taps ((l.cycles j).window M).cell := by
  rw [Lfsr.output, Lfsr.feedback_eq_tapSum, Lfsr.cycles_taps, htaps]
  exact tapSum_congr fun i hi => (Lfsr.window_cell (hmax i hi)).symm

omit hmax htaps in
/-- From cycle `n` on the window holds the latest outputs. -/
theorem Lfsr.window_cycles_apply {k : Nat} (hk : l.n ≤ k) (i : Fin (M + 1)) :
    (l.cycles k).window M i = l.output (k - 1 - i) := by
  have hi := i.isLt
  rw [Lfsr.window, List.getD_eq_getElem?_getD, Lfsr.cycles_stages_getElem? l (by omega), if_pos (by omega)]
  rfl

/-- The outputs repeat after as many cycles as the window does, from the first output on (R90). -/
theorem Lfsr.output_add_of_isPeriodicPt {d : Nat} (hd : IsPeriodicPt (Window.advance taps) d (l.window M)) (j : Nat) :
    l.output (j + d) = l.output j := by
  rw [Lfsr.output_eq_tapSum hmax htaps, Lfsr.output_eq_tapSum hmax htaps, Lfsr.window_cycles hmax htaps hn,
    Lfsr.window_cycles hmax htaps hn, Function.iterate_add_apply, hd]

include hM in
/-- The outputs from cycle `d` on match the first `n` only where the window has come back: they fix the window at cycle
`n + d`, and the cycle is invertible (R90). -/
theorem Lfsr.isPeriodicPt_of_outputs_match (hasc : taps.Pairwise (· < ·)) {d : Nat}
    (h : ∀ i, i < l.n → l.output (i + d) = l.output i) : IsPeriodicPt (Window.advance taps) d (l.window M) := by
  have hsame : (l.cycles (l.n + d)).window M = (l.cycles l.n).window M := by
    funext i
    have hi := i.isLt
    rw [Lfsr.window_cycles_apply hn (by omega), Lfsr.window_cycles_apply hn le_rfl,
      show l.n + d - 1 - i = l.n - 1 - i + d by omega, h (l.n - 1 - i) (by omega)]
  rw [Lfsr.window_cycles hmax htaps hn, Lfsr.window_cycles hmax htaps hn, Function.iterate_add_apply] at hsame
  exact (Window.advance_injective hM hmax hasc).iterate l.n hsame

end
end

/-! ### The cycle that detects the repetition -/

/-- The last `n` of the first `k` values of a sequence are its first `n` values. -/
theorem drop_map_range_eq_iff {f : Nat → Bool} {n k : Nat} (h : n ≤ k) :
    ((List.range k).map f).drop (k - n) = (List.range n).map f ↔ ∀ i, i < n → f (i + (k - n)) = f i := by
  rw [List.ext_getElem_iff]
  simp only [List.length_drop, List.length_map, List.length_range, List.getElem_drop, List.getElem_map,
    List.getElem_range, Nat.add_comm (k - n)]
  exact ⟨fun hall i hi => hall.2 i (by omega) hi, fun hall => ⟨by omega, fun i _ hi => hall i hi⟩⟩

/-- Cycle `k + 1` of an instance configured with no output yet sets REP, if it was 0, exactly when `n` outputs are there
and the last `n` of them are the first `n` again (R88). -/
theorem Lfsr.ConfiguredInv.cycles_succ_rep {nmax : Nat} {l : Lfsr} (h : l.ConfiguredInv nmax) (hs : l.seq = []) (k : Nat) :
    (l.cycles (k + 1)).rep = true ↔
      (l.cycles k).rep = true ∨ (l.n ≤ k ∧ ∀ i, i < l.n → l.output (i + (k + 1 - l.n)) = l.output i) := by
  have hinv := h.cycles k
  have hseq : (l.cycles k).seq = (List.range k).map l.output := by rw [Lfsr.cycles_seq, hs, List.nil_append]
  have hnext : (l.cycles k).seq ++ [(l.cycles k).feedback] = (List.range (k + 1)).map l.output := by
    rw [← Lfsr.cycle_seq, ← Lfsr.cycles_succ, Lfsr.cycles_seq, hs, List.nil_append]
  rw [Lfsr.cycles_succ, Lfsr.cycle_rep_eq_true, hnext]
  refine or_congr_right ?_
  simp only [hseq, List.length_map, List.length_range, Lfsr.cycles_n]
  refine and_congr_right fun hle => ?_
  have hfp : (l.cycles k).fp = (List.range l.n).map l.output := by
    have hset := hinv.fpv.mpr (by simpa [hs] using hle)
    rw [hinv.fingerprint hset, hseq, Lfsr.cycles_n, ← List.map_take, List.take_range, Nat.min_eq_left hle]
  rw [hfp, drop_map_range_eq_iff (by omega)]

/-- REP and REPLEN of an instance whose outputs match again after the multiples of `p` alone: REP from cycle p + n on,
and REPLEN = p + n (R90). -/
theorem Lfsr.ConfiguredInv.cycles_rep {nmax p : Nat} {l : Lfsr} (h : l.ConfiguredInv nmax) (hs : l.seq = [])
    (hr : l.rep = false) (hp : 1 ≤ p)
    (hmatch : ∀ d, (∀ i, i < l.n → l.output (i + d) = l.output i) ↔ p ∣ d) (k : Nat) :
    ((l.cycles k).rep = true ↔ p + l.n ≤ k) ∧ ((l.cycles k).rep = true → (l.cycles k).replen = p + l.n) := by
  have hn := h.stageCount.1
  induction k with
  | zero =>
    have hnot : ¬ (l.cycles 0).rep = true := by simp [hr]
    exact ⟨iff_of_false hnot (by omega), fun hset => absurd hset hnot⟩
  | succ k ih =>
    obtain ⟨ihrep, ihlen⟩ := ih
    have hrep : (l.cycles (k + 1)).rep = true ↔ p + l.n ≤ k + 1 := by
      rw [h.cycles_succ_rep hs, ihrep, hmatch]
      constructor
      · rintro (hle | ⟨hle, hdvd⟩)
        · omega
        · have := Nat.le_of_dvd (by omega) hdvd
          omega
      · intro hle
        obtain hlt | heq : p + l.n ≤ k ∨ k + 1 - l.n = p := by omega
        · exact .inl hlt
        · exact .inr ⟨by omega, heq ▸ dvd_rfl⟩
    refine ⟨hrep, fun hset => ?_⟩
    rw [Lfsr.cycles_succ] at hset ⊢
    rw [Lfsr.cycle_replen hset, Lfsr.cycles_seq_length, hs]
    split
    · exact ihlen ‹_›
    · have hle := hrep.mp hset
      have hnot := mt ihrep.mpr ‹_›
      rw [List.length_nil]
      omega

/-- Settles O47: P is the least number of cycles after which the window of the cells up to the largest tap comes back. -/
theorem periodIsTheLeastPeriod : Obligations.PeriodIsTheLeastPeriod := by
  intro n taps fill htaps hfill l
  obtain ⟨hne, hasc, hrange⟩ := id htaps
  obtain ⟨M, hM, hmax⟩ : ∃ M ∈ taps, ∀ i ∈ taps, i ≤ M := by
    simpa using Finset.exists_max_image taps.toFinset id (List.toFinset_nonempty_iff taps |>.mpr hne)
  have hn : M < l.n := hrange M hM
  have hpos := Window.minimalPeriod_advance_pos hM hmax hasc (l.window M)
  have hperiodic : ∀ d, minimalPeriod (Window.advance taps) (l.window M) ∣ d → ∀ j, l.output (j + d) = l.output j :=
    fun d hd => Lfsr.output_add_of_isPeriodicPt hmax rfl hn (Function.isPeriodicPt_iff_minimalPeriod_dvd.mpr hd)
  have hdvd : ∀ d, (∀ i, i < l.n → l.output (i + d) = l.output i) →
      minimalPeriod (Window.advance taps) (l.window M) ∣ d :=
    fun d hd => (Lfsr.isPeriodicPt_of_outputs_match hM hmax rfl hn hasc hd).minimalPeriod_dvd
  have hinv : l.ConfiguredInv n := Lfsr.fresh_configuredInv (Nat.one_le_of_lt (hrange M hM)) htaps hfill
  refine ⟨minimalPeriod (Window.advance taps) (l.window M), hpos, hperiodic _ dvd_rfl,
    fun q hq hrepeats => Nat.le_of_dvd hq (hdvd q fun i _ => hrepeats i), fun i hi hlargest => ?_, fun k => ?_⟩
  · obtain rfl : i = M := le_antisymm (hmax i hi) (hlargest M hM)
    refine ⟨Window.minimalPeriod_advance_le hM hmax hasc _, fun hcells => ?_⟩
    have hzeros : l.window i = Window.zeros i := funext fun c => hcells c (Nat.lt_succ_iff.mp c.isLt)
    rw [hzeros, Window.minimalPeriod_advance_zeros]
  · obtain ⟨hrep, hreplen⟩ :=
      hinv.cycles_rep rfl rfl hpos (fun d => ⟨hdvd d, fun hd i _ => hperiodic d hd i⟩) k
    refine ⟨hrep, fun hset => ⟨hreplen hset, ?_⟩⟩
    rw [Lfsr.period, if_pos hset, hreplen hset, Lfsr.cycles_n, Nat.add_sub_cancel]

end Sys2Proof.Machine
end

section
/-! The transactions of 20_memory.md: packets as byte streams (R42), READ (R45), and strings read back (R41). -/

namespace Sys2Proof

/-! ### Packets as bytes (R42) -/

/-- Byte `j` of a word, from the least significant: bits 8j + 7 to 8j. -/
theorem wordBytes_getElem? (w : Word) {j : Nat} (hj : j < 4) : (wordBytes w)[j]? = some (w.extractLsb' (8 * j) 8) := by
  have hbyte : (wordBytes w)[j]? = some (BitVec.ofNat 8 (w.toNat / 2 ^ (8 * j))) := by
    interval_cases j <;> simp [wordBytes]
  rw [hbyte, BitVec.extractLsb', Nat.shiftRight_eq_div_pow]

/-- The four bytes of a word give the word back. -/
theorem bytesWord_of_wordBytes (w : Word) :
    bytesWord (BitVec.ofNat 8 w.toNat) (BitVec.ofNat 8 (w.toNat / 2 ^ 8)) (BitVec.ofNat 8 (w.toNat / 2 ^ 16))
      (BitVec.ofNat 8 (w.toNat / 2 ^ 24)) = w := by
  have := w.isLt
  apply BitVec.eq_of_toNat_eq
  simp only [bytesWord, BitVec.toNat_ofNat]
  omega

/-- A whole number of words, sent as bytes, is read back word for word. -/
theorem bytesWords_flatMap_wordBytes (ws : List Word) : bytesWords (ws.flatMap wordBytes) = some ws := by
  induction ws with
  | nil => rfl
  | cons w ws ih =>
    simp only [List.flatMap_cons, wordBytes, List.cons_append, List.nil_append, bytesWords, bytesWord_of_wordBytes]
    rw [ih, Option.map_some]

/-- Byte `4k + j` of a stream of words is byte `j` of word `k`. -/
theorem flatMap_wordBytes_getElem? {ws : List Word} {k j : Nat} {w : Word} (hw : ws[k]? = some w) (hj : j < 4) :
    (ws.flatMap wordBytes)[4 * k + j]? = (wordBytes w)[j]? := by
  have hlen : ∀ v : Word, (wordBytes v).length = 4 := fun _ => rfl
  induction ws generalizing k with
  | nil => simp at hw
  | cons v ws ih =>
    rw [List.flatMap_cons]
    cases k with
    | zero =>
      obtain rfl : v = w := by simpa using hw
      rw [List.getElem?_append_left (by rw [hlen]; omega), Nat.mul_zero, Nat.zero_add]
    | succ k =>
      rw [List.getElem?_append_right (by rw [hlen]; omega), hlen, ← ih (by simpa using hw)]
      congr 1
      omega

theorem ofBytes_toBytes (p : Packet) : Packet.ofBytes p.toBytes = some p := by
  simp only [Packet.ofBytes, Packet.toBytes, bytesWords_flatMap_wordBytes]

/-- Settles O7: the words of a packet are read back from their bytes, and byte `4k + j` is byte `j` of word `k`. -/
theorem byteStreamIsLeastSignificantFirst : Obligations.ByteStreamIsLeastSignificantFirst := by
  intro h payload
  refine ⟨ofBytes_toBytes _, by rw [decodeBytes, ofBytes_toBytes], fun k w hw j hj => ?_⟩
  rw [Packet.toBytes, flatMap_wordBytes_getElem? hw hj, wordBytes_getElem? w hj]

end Sys2Proof

namespace Sys2Proof.Machine

/-! ### READ (R45, R99) -/

/-- No register is a matter of what the host has presented or was last given. -/
@[simp] theorem State.readReg_withHost (s : State) (pending : List Transaction) (reply : Option ReadValue) (id : Byte) :
    ({ s with pending := pending, reply := reply } : State).readReg id = s.readReg id := rfl

/-- Settles O9: a READ writes the reply alone, which no register reads. -/
theorem readWritesNoRegister : Obligations.ReadWritesNoRegister := by
  intro s id rest hpending
  exact ⟨_, step_of_pending_cons hpending, rfl, s.readReg_withHost _ _⟩

/-! ### A loaded string read back (R41, R66) -/

/-- A string is the string of its own BitVector: leading zeros stay and the first bit is the most significant (R13). -/
@[simp] theorem BitString.toBits_ofBits (bs : List Bool) : (BitString.ofBits bs).toBits = bs := by
  simp only [BitString.toBits, BitString.ofBits_len, BitString.ofBits_val]
  induction bs using List.reverseRecOn with
  | nil => rfl
  | append_singleton bs b ih =>
    have hlast : (2 * bitsValue bs + b.toNat).testBit 0 = b := by cases b <;> simp [Nat.testBit_zero]
    have hhalf : (2 * bitsValue bs + b.toNat) / 2 = bitsValue bs := by have := b.toNat_le; omega
    have hbefore : ∀ i ∈ List.range bs.length,
        (2 * bitsValue bs + b.toNat).testBit (bs.length - i) = (bitsValue bs).testBit (bs.length - 1 - i) := by
      intro i hi
      have hi := List.mem_range.mp hi
      rw [show bs.length - i = bs.length - 1 - i + 1 by omega, Nat.testBit_succ, hhalf]
    simp only [bitsValue_append_singleton, List.length_append, List.length_singleton, Nat.add_sub_cancel,
      List.range_succ, List.map_append, List.map_singleton, Nat.sub_self, hlast]
    rw [List.map_congr_left hbefore, ih]

theorem digit_eq_decide (c : Word) : digit c = decide (c = 0x31#32) := rfl

/-- A READ of a vector register that holds a loaded string gives its length and the string (R66). -/
theorem VecReg.reads_of_load (cs : List Word) :
    let v : VecReg := { valid := true, vec := BitString.ofBits (cs.map digit) }
    v.readLen = .number cs.length ∧ v.readBits = .bits (cs.map fun c => decide (c = 0x31#32)) := by
  simp [VecReg.readLen, VecReg.readBits, digit_eq_decide]

section
variable {s : State} {cs : List Word} (h1 : 1 ≤ cs.length) (h2 : cs.length ≤ s.params.lmax) (hd : digitsOk cs)
include h1 h2 hd

/-- The operand of a load of 1 to LMAX digits (R97, R98). -/
theorem loadOperand_of_digitsOk : loadOperand s.params.lmax cs = .ok (BitString.ofBits (cs.map digit)) :=
  loadOperand_ok (by omega) ((digitsOk_iff cs).mp hd)

theorem exec_lda_of_digitsOk :
    exec (.lda cs) s = .next (s.loadA (BitString.ofBits (cs.map digit))).succeed := by
  simp only [exec, execLda, loadOperand_of_digitsOk h1 h2 hd, Except.map, finish_ok]

theorem exec_ldb_of_digitsOk :
    exec (.ldb cs) s = .next (s.loadB (BitString.ofBits (cs.map digit))).succeed := by
  simp only [exec, execLdb, loadOperand_of_digitsOk h1 h2 hd, Except.map, finish_ok]

end

/-- Settles O35: the load writes the string's BitVector, whose string is the one loaded. -/
theorem loadedStringReadsBack : Obligations.LoadedStringReadsBack := by
  intro s cs h1 h2 hd
  have hreads := VecReg.reads_of_load cs
  exact ⟨⟨_, exec_lda_of_digitsOk h1 h2 hd, hreads⟩, ⟨_, exec_ldb_of_digitsOk h1 h2 hd, hreads⟩⟩

end Sys2Proof.Machine
end

section
/-! Every command completes but for the model's one fault (R44, R102; log 9), and works on its own unit alone (R2, R47). -/

namespace Sys2Proof.Machine

/-! ### Completion -/

section
variable {s : State} {u : Fin 16} {l : Lfsr}

theorem exec_run_of_error {e : ErrorCode} (budget : Option Word) (hs : s.configured u = .error e) :
    exec (.run u budget) s = finish s (.error e) := by
  simp only [exec, execRun, hs]

theorem exec_run_of_budget (w : Word) (hs : s.configured u = .ok l) :
    exec (.run u (some w)) s =
      finish s (.ok (s.setLfsr u ((l.runLoop w.toNat 0).1.endRun (l.runLoop w.toNat 0).2))) := by
  simp only [exec, execRun, hs]

/-- RUN with no budget stops in the fault exactly when its loop has not found a repetition (log 9). -/
theorem exec_run_of_no_budget (hs : s.configured u = .ok l) :
    exec (.run u none) s =
      if (l.runLoop l.repeatBound 0).1.rep then
        finish s (.ok (s.setLfsr u ((l.runLoop l.repeatBound 0).1.endRun (l.runLoop l.repeatBound 0).2)))
      else .fault .runNeverRepeats := by
  simp only [exec, execRun, hs]

end

/-- RUN completes, but with no budget on a configured instance it may end in the fault. -/
theorem exec_run_completes (u : Fin 16) (budget : Option Word) (s : State) :
    (∃ t, exec (.run u budget) s = .next t) ∨
      ∃ l, budget = none ∧ s.lfsrs[u.val]? = some l ∧ l.cfg = true ∧
        exec (.run u budget) s = .fault .runNeverRepeats := by
  obtain ⟨-, hs⟩ | ⟨_, -, -, hs⟩ | ⟨l, hl, hc, hs⟩ := configured_cases s u
  · exact .inl ⟨_, exec_run_of_error budget hs⟩
  · exact .inl ⟨_, exec_run_of_error budget hs⟩
  · cases budget with
    | some w => exact .inl ⟨_, exec_run_of_budget w hs⟩
    | none =>
      have hrun := exec_run_of_no_budget hs
      split at hrun
      · exact .inl ⟨_, hrun⟩
      · exact .inr ⟨l, rfl, hl, hc, hrun⟩

/-- Settles O16: every command but RUN ends by `finish`. -/
theorem commandsComplete : Obligations.CommandsComplete := by
  intro i s
  cases i with
  | nop => exact .inl ⟨_, rfl⟩
  | addt | adde | and | xor | lda | ldb | lcfg | step => exact .inl (finish_completes s _)
  | run u budget =>
    obtain h | ⟨l, rfl, hl, hc, h⟩ := exec_run_completes u budget s
    · exact .inl h
    · exact .inr ⟨u, l, rfl, hl, hc, h⟩

/-! ### The registers of one unit -/

/-- `s` with the registers of one unit as `t` has them: A, B, R and PASSES (no instance named), or those of instance `u`. -/
def State.graft (s : State) (unit : Option (Fin 16)) (t : State) : State :=
  match unit with
  | none => { s with a := t.a, b := t.b, r := t.r, passes := t.passes }
  | some u => { s with lfsrs := s.lfsrs.set u (t.lfsrs.getD u Lfsr.reset) }

/-- `s` with ERR as given. -/
def State.withErr (s : State) (e : Byte) : State := { s with err := e }

@[simp] theorem State.succeed_withErr (s : State) (e : Byte) : (s.withErr e).succeed = s.succeed := rfl

/-- The two states have the same registers of one unit, and the same parameters. -/
def State.SameUnit (s t : State) (unit : Option (Fin 16)) : Prop :=
  s.params = t.params ∧
    match unit with
    | none => s.a = t.a ∧ s.b = t.b ∧ s.r = t.r ∧ s.passes = t.passes
    | some u => s.lfsrs[u.val]? = t.lfsrs[u.val]?

section
variable (s t : State) (unit : Option (Fin 16))

@[simp] theorem State.graft_params : (s.graft unit t).params = s.params := by cases unit <;> rfl
@[simp] theorem State.graft_pending : (s.graft unit t).pending = s.pending := by cases unit <;> rfl
@[simp] theorem State.graft_reply : (s.graft unit t).reply = s.reply := by cases unit <;> rfl

@[simp] theorem State.graft_lfsrs_length : (s.graft unit t).lfsrs.length = s.lfsrs.length := by
  cases unit with
  | none => rfl
  | some u => exact List.length_set

theorem State.graft_lfsrs_of_ne (u : Fin 16) {v : Nat} (h : v ≠ u.val) : (s.graft (some u) t).lfsrs[v]? = s.lfsrs[v]? :=
  List.getElem?_set_ne h.symm

theorem State.sameUnit_refl : s.SameUnit s unit := by
  cases unit with
  | none => exact ⟨rfl, rfl, rfl, rfl, rfl⟩
  | some u => exact ⟨rfl, rfl⟩

/-- ERR belongs to no unit. -/
theorem State.graft_withErr (e : Byte) : (s.withErr e).graft unit t = (s.graft unit t).withErr e := by
  cases unit <;> rfl

theorem State.succeed_graft : (s.graft unit t).succeed = s.succeed.graft unit t := (s.graft_withErr t unit 0#8).symm

/-- Grafting one unit leaves every other unit's registers alone. -/
theorem State.sameUnit_graft {unit' : Option (Fin 16)} (h : unit ≠ unit') : s.SameUnit (s.graft unit t) unit' := by
  refine ⟨(s.graft_params t unit).symm, ?_⟩
  cases unit' with
  | none =>
    cases unit with
    | none => exact absurd rfl h
    | some u => exact ⟨rfl, rfl, rfl, rfl⟩
  | some v =>
    cases unit with
    | none => rfl
    | some u => exact (s.graft_lfsrs_of_ne t u fun hv => h (congrArg some (Fin.ext hv.symm))).symm

/-- Grafts of two different units commute. -/
theorem State.graft_comm {unit' : Option (Fin 16)} (t' : State) (h : unit ≠ unit') :
    (s.graft unit t).graft unit' t' = (s.graft unit' t').graft unit t := by
  cases unit with
  | none =>
    cases unit' with
    | none => exact absurd rfl h
    | some v => rfl
  | some u =>
    cases unit' with
    | none => rfl
    | some v =>
      have huv : u.val ≠ v.val := fun hv => h (congrArg some (Fin.ext hv))
      simp only [State.graft, List.set_comm _ _ huv]

end

section
variable {s s' : State}

theorem State.SameUnit.symm {unit : Option (Fin 16)} (h : s.SameUnit s' unit) : s'.SameUnit s unit := by
  obtain ⟨hparams, hregs⟩ := h
  refine ⟨hparams.symm, ?_⟩
  cases unit with
  | none =>
    obtain ⟨ha, hb, hr, hp⟩ := hregs
    exact ⟨ha.symm, hb.symm, hr.symm, hp.symm⟩
  | some u => exact hregs.symm

theorem State.SameUnit.withErr {unit : Option (Fin 16)} (h : s.SameUnit s' unit) (e : Byte) :
    s.SameUnit (s'.withErr e) unit := by
  cases unit <;> exact h

theorem State.SameUnit.graft_eq {unit : Option (Fin 16)} (h : s.SameUnit s' unit) : s'.graft unit s = s' := by
  cases unit with
  | none =>
    obtain ⟨-, ha, hb, hr, hp⟩ := h
    simp only [State.graft, ha, hb, hr, hp]
  | some u =>
    obtain ⟨-, hl⟩ := h
    have hset : s'.lfsrs.set u (s.lfsrs.getD u Lfsr.reset) = s'.lfsrs := by
      rw [List.getD_eq_getElem?_getD, hl]
      by_cases hlt : u.val < s'.lfsrs.length
      · simp [hlt]
      · exact List.set_eq_of_length_le (Nat.not_lt.mp hlt)
    simp only [State.graft, hset]

theorem State.SameUnit.graft_loadA (h : s.SameUnit s' none) (v : BitString) : s'.graft none (s.loadA v) = s'.loadA v := by
  obtain ⟨-, -, hb, hr, hp⟩ := h
  simp [State.graft, State.loadA, hb, hr, hp]

theorem State.SameUnit.graft_loadB (h : s.SameUnit s' none) (v : BitString) : s'.graft none (s.loadB v) = s'.loadB v := by
  obtain ⟨-, ha, -, hr, hp⟩ := h
  simp [State.graft, State.loadB, ha, hr, hp]

theorem State.SameUnit.graft_setResult (h : s.SameUnit s' none) (v : BitString) (k : Nat) :
    s'.graft none (s.setResult v k) = s'.setResult v k := by
  obtain ⟨-, ha, hb, -, -⟩ := h
  simp [State.graft, State.setResult, ha, hb]

theorem State.graft_setLfsr {u : Fin 16} {old : Lfsr} (hold : s.lfsrs[u.val]? = some old) (l : Lfsr) :
    s'.graft (some u) (s.setLfsr u l) = s'.setLfsr u l := by
  obtain ⟨hlt, -⟩ := List.getElem?_eq_some_iff.mp hold
  simp [State.graft, State.setLfsr, hlt]

theorem State.SameUnit.operands_eq (h : s.SameUnit s' none) : s'.operands = s.operands := by
  obtain ⟨-, ha, hb, -, -⟩ := h
  simp only [State.operands, ha, hb]

theorem State.SameUnit.configured_eq {u : Fin 16} (h : s.SameUnit s' (some u)) : s'.configured u = s.configured u := by
  obtain ⟨-, hl⟩ := h
  simp only [State.configured, State.lfsr?_eq, hl]

/-! ### A command reads and writes its own unit -/

/-- The end of a command, carried over to another state: the same error, or the same writes. -/
theorem finish_graft {t : State} {r : Except ErrorCode State} {unit : Option (Fin 16)} (hsame : s.SameUnit s' unit)
    (h : finish s r = .next t) :
    finish s' (r.map (s'.graft unit)) = .next ((s'.graft unit t).withErr t.err) := by
  obtain ⟨e, rfl, rfl⟩ | ⟨w, rfl, rfl⟩ := finish_next h
  · have hgraft : s'.graft unit (s.raise e) = s'.graft unit s := by cases unit <;> rfl
    rw [hgraft, hsame.graft_eq]
    rfl
  · have hgraft : s'.graft unit w.succeed = s'.graft unit w := by cases unit <;> rfl
    rw [hgraft]
    rfl

/-- Command `i` ends alike in `s` and `s'`: by `finish`, with the same error or the same writes to its unit. -/
def EndsAlike (i : Instr) (s s' : State) : Prop :=
  ∃ r, exec i s = finish s r ∧ exec i s' = finish s' (r.map (s'.graft (unitOf i)))

/-- Writes carried over one by one are carried over as an outcome. -/
theorem map_graft {α : Type} {x : Except ErrorCode α} {unit : Option (Fin 16)} {write write' : α → State}
    (h : ∀ v, s'.graft unit (write v) = write' v) : (x.map write).map (s'.graft unit) = x.map write' := by
  cases x with
  | error e => rfl
  | ok v => exact congrArg Except.ok (h v)

theorem endsAlike_arithmetic {i : Instr} (hi : i ∈ arithmeticCommands) (hu : unitOf i = none) (h : s.SameUnit s' none) :
    EndsAlike i s s' := by
  obtain ⟨op, hop⟩ := exec_arithmetic hi
  rw [EndsAlike, hop s, hop s', hu]
  refine ⟨_, rfl, ?_⟩
  rw [arithmetic, h.operands_eq]
  cases s.operands with
  | error e => rfl
  | ok xy => simp only [Except.map, h.graft_setResult]

theorem endsAlike_lda (cs : List Word) (h : s.SameUnit s' none) : EndsAlike (.lda cs) s s' := by
  refine ⟨_, rfl, ?_⟩
  rw [unitOf, map_graft h.graft_loadA, h.1]
  rfl

theorem endsAlike_ldb (cs : List Word) (h : s.SameUnit s' none) : EndsAlike (.ldb cs) s s' := by
  refine ⟨_, rfl, ?_⟩
  rw [unitOf, map_graft h.graft_loadB, h.1]
  rfl

/-- A command that writes its instance with the same registers in both states ends alike in them. -/
theorem endsAlike_of_setLfsr {i : Instr} {u : Fin 16} {l l' : Lfsr} (hu : unitOf i = some u) (hl : s.lfsrs[u.val]? = some l)
    (hs : exec i s = finish s (.ok (s.setLfsr u l'))) (hs' : exec i s' = finish s' (.ok (s'.setLfsr u l'))) :
    EndsAlike i s s' :=
  ⟨_, hs, by rw [hs', hu, Except.map, State.graft_setLfsr hl]⟩

section
variable {u : Fin 16} (h : s.SameUnit s' (some u))
include h

theorem endsAlike_lcfg (ns : Fin 512) (taps : List Word) (fill : Fill) : EndsAlike (.lcfg u ns taps fill) s s' := by
  obtain ⟨hparams, hl⟩ := h
  refine ⟨_, rfl, ?_⟩
  simp only [exec, execLcfg, unitOf, State.lfsr?_eq, ← hparams, ← hl]
  cases hold : s.lfsrs[u.val]? with
  | none => rfl
  | some old =>
    simp only
    cases configure s.params.nmax u old ns taps fill with
    | error e => rfl
    | ok l => simp only [Except.map, State.graft_setLfsr hold]

theorem endsAlike_step : EndsAlike (.step u) s s' := by
  refine ⟨_, rfl, ?_⟩
  simp only [exec, execStep, unitOf, h.configured_eq]
  obtain ⟨-, hs⟩ | ⟨_, -, -, hs⟩ | ⟨l, hl, -, hs⟩ := configured_cases s u <;> simp only [hs, Except.map]
  rw [State.graft_setLfsr hl]

/-- A RUN that does not end in the fault. -/
theorem endsAlike_run {budget : Option Word} {t : State} (hx : exec (.run u budget) s = .next t) :
    EndsAlike (.run u budget) s s' := by
  obtain ⟨-, hs⟩ | ⟨_, -, -, hs⟩ | ⟨l, hl, -, hs⟩ := configured_cases s u
  all_goals have hs' := h.configured_eq.trans hs
  · exact ⟨.error _, exec_run_of_error budget hs, exec_run_of_error budget hs'⟩
  · exact ⟨.error _, exec_run_of_error budget hs, exec_run_of_error budget hs'⟩
  · cases budget with
    | some w => exact endsAlike_of_setLfsr rfl hl (exec_run_of_budget w hs) (exec_run_of_budget w hs')
    | none =>
      have hrun := exec_run_of_no_budget hs
      have hrun' := exec_run_of_no_budget hs'
      split at hrun
      · rw [if_pos ‹_›] at hrun'
        exact endsAlike_of_setLfsr rfl hl hrun hrun'
      · rw [hrun] at hx
        cases hx

end

/-- A command reads and writes its own unit alone (R2, R47): in a state with the same registers of that unit it does the
same to them, and nothing else but ERR changes. -/
theorem exec_of_sameUnit {i : Instr} {t : State} (hsame : s.SameUnit s' (unitOf i)) (h : exec i s = .next t) :
    exec i s' = .next ((s'.graft (unitOf i) t).withErr t.err) := by
  have halike : EndsAlike i s s' := by
    cases i with
    | nop => exact ⟨.ok s, rfl, by rw [Except.map, hsame.graft_eq]; rfl⟩
    | addt | adde | and | xor => exact endsAlike_arithmetic (by decide) rfl hsame
    | lda cs => exact endsAlike_lda cs hsame
    | ldb cs => exact endsAlike_ldb cs hsame
    | lcfg u ns taps fill => exact endsAlike_lcfg hsame ns taps fill
    | step u => exact endsAlike_step hsame
    | run u budget => exact endsAlike_run hsame h
  obtain ⟨r, hr, hr'⟩ := halike
  rw [hr', finish_graft hsame (hr ▸ h)]

/-- The frame of a command: every register but ERR and those of its own unit stays. -/
theorem exec_frame {i : Instr} {t : State} (h : exec i s = .next t) : t = (s.graft (unitOf i) t).withErr t.err :=
  Host.Outcome.next.inj (h.symm.trans (exec_of_sameUnit (s.sameUnit_refl _) h))

theorem exec_frame_succeed {i : Instr} {t : State} (h : exec i s = .next t) : t.succeed = (s.graft (unitOf i) t).succeed :=
  (congrArg State.succeed (exec_frame h)).trans (State.succeed_withErr _ _)

end

/-- Settles O18: the frame of a command, unit by unit. -/
theorem unitsAreIsolated : Obligations.UnitsAreIsolated := by
  intro i s t h
  rw [exec_frame h]
  refine ⟨s.graft_params t _, s.graft_pending t _, s.graft_reply t _, s.graft_lfsrs_length t _,
    fun hu => ?_, fun u hu => ?_⟩
  · rw [hu]
    rfl
  · rw [hu]
    exact ⟨rfl, rfl, rfl, rfl, fun v hv => s.graft_lfsrs_of_ne t u hv⟩

/-- A command leaves every unit but its own as it was. -/
theorem exec_sameUnit {i : Instr} {s t : State} {unit : Option (Fin 16)} (h : exec i s = .next t) (hne : unitOf i ≠ unit) :
    s.SameUnit t unit := by
  rw [exec_frame h]
  exact (s.sameUnit_graft t _ hne).withErr t.err

/-- Settles O19: each command finds its unit as it was, whichever runs first, and grafts of two units commute. -/
theorem independentCommandsCommute : Obligations.IndependentCommandsCommute := by
  intro i j s s1 t hunits hi hj
  have hj' := exec_of_sameUnit (exec_sameUnit hi hunits).symm hj
  have hi' := exec_of_sameUnit (exec_sameUnit hj' hunits.symm) hi
  refine ⟨_, _, hj', hi', ?_⟩
  calc t.succeed
    _ = (s1.graft (unitOf j) t).succeed := exec_frame_succeed hj
    _ = s1.succeed.graft (unitOf j) t := s1.succeed_graft t _
    _ = (s.graft (unitOf i) s1).succeed.graft (unitOf j) t :=
      congrArg (State.graft · (unitOf j) t) (exec_frame_succeed hi)
    _ = (s.succeed.graft (unitOf i) s1).graft (unitOf j) t := by rw [State.succeed_graft]
    _ = (s.succeed.graft (unitOf j) t).graft (unitOf i) s1 := s.succeed.graft_comm s1 _ t hunits
    _ = ((((s.graft (unitOf j) t).withErr t.err).graft (unitOf i) s1).withErr s1.err).succeed := by
      simp only [State.succeed_withErr, State.succeed_graft]

end Sys2Proof.Machine
end

section
/-! The decoder and the encoder of packets (30_encoding.md R51 to R64): each header format read field by field, and each
format's decoder said once. -/

namespace Sys2Proof

/-! ### Headers, field by field (R52 to R57) -/

theorem bits_lt (h : Word) (hi lo : Nat) : bits h hi lo < 2 ^ (hi + 1 - lo) := Nat.mod_lt _ (Nat.two_pow_pos _)

/-- A header is its opcode and its low 24 bits. -/
theorem eq_header_iff {h : Word} {op low : Nat} (ho : op < 2 ^ 8) (hl : low < 2 ^ 24) :
    h = header op low ↔ bits h 31 24 = op ∧ bits h 23 0 = low := by
  have := h.isLt
  rw [← BitVec.toNat_inj, header, BitVec.toNat_ofNat, Nat.mod_eq_of_lt (by omega)]
  simp only [bits]
  omega

theorem unitField_eq_iff {h : Word} {u : Fin 16} : unitField h = u ↔ bits h 23 20 = u := by
  rw [Fin.ext_iff, unitField, Fin.val_ofNat, Nat.mod_eq_of_lt (b := 16) (bits_lt h 23 20)]

theorem stageField_eq_iff {h : Word} {ns : Fin 512} : stageField h = ns ↔ bits h 8 0 = ns := by
  rw [Fin.ext_iff, stageField, Fin.val_ofNat, Nat.mod_eq_of_lt (b := 512) (bits_lt h 8 0)]

/-- Format L (R54). -/
theorem eq_headerL_iff {h : Word} {op len : Nat} (ho : op < 2 ^ 8) (hl : len < 2 ^ 9) :
    h = header op len ↔ bits h 31 24 = op ∧ bits h 23 9 = 0 ∧ bits h 8 0 = len := by
  rw [eq_header_iff ho (by omega)]
  simp only [bits]
  omega

/-- Format C (R55). -/
theorem eq_headerC_iff {h : Word} {op fpol tc : Nat} {u : Fin 16} {ns : Fin 512} (ho : op < 2 ^ 8) (hf : fpol < 2 ^ 2)
    (htc : tc < 2 ^ 8) :
    h = header op (u.val * 2 ^ 20 + fpol * 2 ^ 18 + tc * 2 ^ 10 + ns.val) ↔
      bits h 31 24 = op ∧ unitField h = u ∧ bits h 19 18 = fpol ∧ bits h 17 10 = tc ∧ bits h 9 9 = 0 ∧
        stageField h = ns := by
  rw [eq_header_iff ho (by omega), unitField_eq_iff, stageField_eq_iff]
  simp only [bits]
  omega

/-- Formats U and RN (R56, R57), bit 0 being a must-be-zero bit of the one and BE of the other. -/
theorem eq_headerRN_iff {h : Word} {op be : Nat} {u : Fin 16} (ho : op < 2 ^ 8) (hb : be < 2) :
    h = header op (u.val * 2 ^ 20 + be) ↔
      bits h 31 24 = op ∧ unitField h = u ∧ bits h 19 1 = 0 ∧ bits h 0 0 = be := by
  rw [eq_header_iff ho (by omega), unitField_eq_iff]
  simp only [bits]
  omega

theorem eq_headerU_iff {h : Word} {op : Nat} {u : Fin 16} (ho : op < 2 ^ 8) :
    h = header op (u.val * 2 ^ 20) ↔ bits h 31 24 = op ∧ unitField h = u ∧ bits h 19 0 = 0 := by
  rw [eq_header_iff ho (by omega), unitField_eq_iff]
  simp only [bits]
  omega

/-! ### What each format's decoder accepts (R53 to R57, R61) -/

variable {p : Packet} {i : Instr}

theorem decodeZ_eq_ok {j : Instr} : decodeZ j p = .ok i ↔ bits p.header 23 0 = 0 ∧ p.payload = [] ∧ j = i := by
  simp only [decodeZ, ne_eq, ite_not, List.length_eq_zero_iff]
  split_ifs <;> simp [*]

theorem decodeL_eq_ok {mk : List Word → Instr} :
    decodeL mk p = .ok i ↔ bits p.header 23 9 = 0 ∧ p.payload.length = bits p.header 8 0 ∧ mk p.payload = i := by
  simp only [decodeL, ne_eq, ite_not]
  split_ifs <;> simp [*]

theorem decodeU_eq_ok :
    decodeU p = .ok i ↔ bits p.header 19 0 = 0 ∧ p.payload = [] ∧ .step (unitField p.header) = i := by
  simp only [decodeU, ne_eq, ite_not, List.length_eq_zero_iff]
  split_ifs <;> simp [*]

/-- The budget words of RUN are as many as BE says (R57). -/
theorem decodeRN_eq_ok :
    decodeRN p = .ok i ↔ bits p.header 19 1 = 0 ∧
      ∃ budget : Option Word, bits p.header 0 0 = budget.toList.length ∧ p.payload = budget.toList ∧
        .run (unitField p.header) budget = i := by
  have hbe := bits_lt p.header 0 0
  simp only [decodeRN, ne_eq, ite_not]
  split_ifs with hz hb
  · cases hp : p.payload <;> simp [hz, hb, Option.exists]
  · have hone : bits p.header 0 0 = 1 := by omega
    rcases hp : p.payload with _ | ⟨w, _ | ⟨w', ws⟩⟩ <;> simp [hz, hone, Option.exists]
  · simp [hz]

/-- FLEN is the number of characters when they fit its 32 bits (R60). -/
theorem flen_toNat {chars : List Word} (h : chars.length < 2 ^ 32) :
    (BitVec.ofNat 32 chars.length).toNat = chars.length := Nat.mod_eq_of_lt h

theorem Fill.fpol_lt (fill : Fill) : fill.fpol < 3 := by cases fill <;> simp [Fill.fpol]

/-- The payload of an LCFG is its tap words and then the words of its fill (R55, R60). -/
theorem decodeC_eq_ok :
    decodeC p = .ok i ↔ bits p.header 9 9 = 0 ∧
      ∃ taps fill, taps.length = bits p.header 17 10 ∧ fill.fpol = bits p.header 19 18 ∧ fill.wf = true ∧
        p.payload = taps ++ fill.words ∧ .lcfg (unitField p.header) (stageField p.header) taps fill = i := by
  constructor
  · intro h
    simp only [decodeC, ne_eq, ite_not] at h
    split_ifs at h with hz h0 hlen h1 hlen h2
    · cases h
      exact ⟨hz, p.payload, .allOnes, hlen, h0.symm, rfl, (List.append_nil _).symm, rfl⟩
    · cases h
      exact ⟨hz, p.payload, .random, hlen, h1.symm, rfl, (List.append_nil _).symm, rfl⟩
    · split at h
      · cases h
      · next flen chars hdrop =>
        split_ifs at h with hlen
        cases h
        have hsplit := List.take_append_drop (bits p.header 17 10) p.payload
        have htc : bits p.header 17 10 < p.payload.length := by
          rw [← List.drop_eq_nil_iff.not.trans not_le, hdrop]
          exact List.cons_ne_nil _ _
        refine ⟨hz, p.payload.take _, .custom chars, List.length_take_of_le htc.le, h2.symm, ?_, ?_, rfl⟩
        · exact decide_eq_true (hlen ▸ flen.isLt)
        · rw [Fill.words, hlen, BitVec.ofNat_toNat, BitVec.setWidth_eq, ← hdrop, hsplit]
  · rintro ⟨hz, taps, fill, htaps, hfpol, hwf, hp, rfl⟩
    cases fill with
    | allOnes => simp [decodeC, hz, ← htaps, ← hfpol, hp, Fill.fpol, Fill.words]
    | random => simp [decodeC, hz, ← htaps, ← hfpol, hp, Fill.fpol, Fill.words]
    | custom chars =>
      simp only [Fill.fpol, Fill.words, Fill.wf, decide_eq_true_eq] at hfpol hp hwf
      simp [decodeC, hz, ← htaps, ← hfpol, hp, flen_toNat hwf, -BitVec.toNat_ofNat]

/-! ### The decoder by opcode (R62) -/

/-- Every accepted packet has a listed opcode and is accepted by that opcode's format. -/
theorem decode_eq_ok :
    decode p = .ok i ↔
      (bits p.header 31 24 = 0x00 ∧ decodeZ .nop p = .ok i) ∨
      (bits p.header 31 24 = 0x01 ∧ decodeZ .addt p = .ok i) ∨
      (bits p.header 31 24 = 0x02 ∧ decodeZ .adde p = .ok i) ∨
      (bits p.header 31 24 = 0x03 ∧ decodeZ .and p = .ok i) ∨
      (bits p.header 31 24 = 0x04 ∧ decodeZ .xor p = .ok i) ∨
      (bits p.header 31 24 = 0x10 ∧ decodeL .lda p = .ok i) ∨
      (bits p.header 31 24 = 0x11 ∧ decodeL .ldb p = .ok i) ∨
      (bits p.header 31 24 = 0x20 ∧ decodeC p = .ok i) ∨
      (bits p.header 31 24 = 0x21 ∧ decodeU p = .ok i) ∨
      (bits p.header 31 24 = 0x22 ∧ decodeRN p = .ok i) := by
  simp only [decode]
  split_ifs <;> simp [*]

/-! ### The packets of each format -/

theorem packet_eq_iff {h : Word} {payload : List Word} :
    Packet.mk h payload = p ↔ p.header = h ∧ p.payload = payload := by
  cases p
  simp [eq_comm]

section
variable {op : Nat} (ho : op < 2 ^ 8)
include ho

theorem decodeZ_iff_encode {j : Instr} (henc : encode j = ⟨header op 0, []⟩) :
    bits p.header 31 24 = op ∧ decodeZ j p = .ok i ↔ j = i ∧ encode j = p := by
  rw [decodeZ_eq_ok, henc, packet_eq_iff, eq_header_iff ho (by norm_num)]
  tauto

theorem decodeL_iff_encode {mk : List Word → Instr} (henc : ∀ cs, encode (mk cs) = ⟨header op cs.length, cs⟩) :
    bits p.header 31 24 = op ∧ decodeL mk p = .ok i ↔ ∃ cs, cs.length < 512 ∧ mk cs = i ∧ encode (mk cs) = p := by
  rw [decodeL_eq_ok]
  constructor
  · rintro ⟨hop, hz, hlen, rfl⟩
    have hlt : p.payload.length < 512 := hlen ▸ bits_lt p.header 8 0
    refine ⟨p.payload, hlt, rfl, ?_⟩
    rw [henc, packet_eq_iff, eq_headerL_iff ho hlt]
    exact ⟨⟨hop, hz, hlen.symm⟩, rfl⟩
  · rintro ⟨cs, hlt, rfl, hp⟩
    rw [henc, packet_eq_iff, eq_headerL_iff ho hlt] at hp
    obtain ⟨⟨hop, hz, hlen⟩, rfl⟩ := hp
    exact ⟨hop, hz, hlen.symm, rfl⟩

end

theorem decodeU_iff_encode :
    bits p.header 31 24 = 0x21 ∧ decodeU p = .ok i ↔ ∃ u, .step u = i ∧ encode (.step u) = p := by
  simp only [decodeU_eq_ok, encode, packet_eq_iff, eq_headerU_iff (op := 0x21) (by norm_num)]
  constructor
  · rintro ⟨hop, hz, hp, rfl⟩
    exact ⟨_, rfl, ⟨hop, rfl, hz⟩, hp⟩
  · rintro ⟨u, rfl, ⟨hop, rfl, hz⟩, hp⟩
    exact ⟨hop, hz, hp, rfl⟩

theorem encode_run (u : Fin 16) (budget : Option Word) :
    encode (.run u budget) = ⟨header 0x22 (u.val * 2 ^ 20 + budget.toList.length), budget.toList⟩ := by
  cases budget <;> simp [encode]

theorem decodeRN_iff_encode :
    bits p.header 31 24 = 0x22 ∧ decodeRN p = .ok i ↔
      ∃ u budget, .run u budget = i ∧ encode (.run u budget) = p := by
  have hbe (budget : Option Word) : budget.toList.length < 2 := by cases budget <;> simp
  simp only [decodeRN_eq_ok, encode_run, packet_eq_iff, eq_headerRN_iff (op := 0x22) (by norm_num) (hbe _)]
  constructor
  · rintro ⟨hop, hz, budget, hlen, hp, rfl⟩
    exact ⟨_, budget, rfl, ⟨hop, rfl, hz, hlen⟩, hp⟩
  · rintro ⟨u, budget, rfl, ⟨hop, rfl, hz, hlen⟩, hp⟩
    exact ⟨hop, hz, budget, hlen, hp, rfl⟩

theorem decodeC_iff_encode :
    bits p.header 31 24 = 0x20 ∧ decodeC p = .ok i ↔
      ∃ u ns taps fill, taps.length < 256 ∧ fill.wf = true ∧ .lcfg u ns taps fill = i ∧
        encode (.lcfg u ns taps fill) = p := by
  rw [decodeC_eq_ok]
  constructor
  · rintro ⟨hop, hz, taps, fill, htc, hfpol, hwf, hp, rfl⟩
    have hlt : taps.length < 256 := htc ▸ bits_lt p.header 17 10
    refine ⟨_, _, taps, fill, hlt, hwf, rfl, ?_⟩
    rw [encode, packet_eq_iff, eq_headerC_iff (by norm_num) (by have := fill.fpol_lt; omega) hlt]
    exact ⟨⟨hop, rfl, hfpol.symm, htc.symm, hz, rfl⟩, hp⟩
  · rintro ⟨u, ns, taps, fill, hlt, hwf, rfl, hp⟩
    rw [encode, packet_eq_iff, eq_headerC_iff (by norm_num) (by have := fill.fpol_lt; omega) hlt] at hp
    obtain ⟨⟨hop, rfl, hfpol, htc, hz, rfl⟩, hp⟩ := hp
    exact ⟨hop, hz, taps, fill, htc.symm, hfpol.symm, hwf, hp, rfl⟩

/-! ### Decoding and encoding agree -/

/-- The decoder accepts exactly the packets of the commands that fit the encoding, each as its command. -/
theorem decode_eq_ok_iff_encode : decode p = .ok i ↔ i.wf = true ∧ encode i = p := by
  rw [decode_eq_ok, decodeZ_iff_encode (by norm_num) rfl, decodeZ_iff_encode (by norm_num) rfl,
    decodeZ_iff_encode (by norm_num) rfl, decodeZ_iff_encode (by norm_num) rfl, decodeZ_iff_encode (by norm_num) rfl,
    decodeL_iff_encode (by norm_num) fun _ => rfl, decodeL_iff_encode (by norm_num) fun _ => rfl, decodeC_iff_encode,
    decodeU_iff_encode, decodeRN_iff_encode]
  cases i <;> simp [Instr.wf, and_assoc]

/-- Settles O1: the packet of a well-formed command is one the decoder accepts as it. -/
theorem decodeOfEncode : Obligations.DecodeOfEncode := fun _ hwf => decode_eq_ok_iff_encode.mpr ⟨hwf, rfl⟩

/-- Settles O2: an accepted packet's header and payload are those of its command. -/
theorem encodeOfDecode : Obligations.EncodeOfDecode := fun _ _ h => decode_eq_ok_iff_encode.mp h

end Sys2Proof
end

section
/-! The opcode map and the packets the decoder accepts (30_encoding.md R61 to R64). -/

namespace Sys2Proof

/-! ### The rows of the opcode map (R63) -/

/-- The bits below the opcode that a format requires to be zero, as the highest and the lowest (R53 to R57). -/
def Format.zeroField : Format → Nat × Nat
  | .Z  => (23, 0)
  | .L  => (23, 9)
  | .C  => (9, 9)
  | .U  => (19, 0)
  | .RN => (19, 1)

/-- Those bits of a header. -/
def Format.zeroBits (f : Format) (h : Word) : Nat := bits h f.zeroField.1 f.zeroField.2

/-- Every row's mask is the opcode and the must-be-zero bits of its format, and its match is the opcode. -/
theorem opcodeMap_masks : ∀ row ∈ opcodeMap, row.op < 2 ^ 8 ∧ ∀ i < 32,
    row.maskH.getLsbD i = (decide (24 ≤ i) || decide (row.format.zeroField.2 ≤ i ∧ i ≤ row.format.zeroField.1)) ∧
    row.matchH.getLsbD i = (decide (24 ≤ i) && row.op.testBit (i - 24)) := by decide

theorem Format.zeroField_lt (f : Format) : f.zeroField.1 < 24 := by cases f <;> decide

/-- A header selects a row exactly when it has the row's opcode and zeros in the must-be-zero bits of its format. -/
theorem selects_iff_fields {row : OpRow} (hrow : row ∈ opcodeMap) (h : Word) :
    row.selects h = true ↔ bits h 31 24 = row.op ∧ row.format.zeroBits h = 0 := by
  obtain ⟨hop, hmask⟩ := opcodeMap_masks row hrow
  have hhi := row.format.zeroField_lt
  rw [selects_iff_bits, bits_eq_iff h 31 24 row.op hop, Format.zeroBits, bits_eq_iff h _ _ 0 (Nat.two_pow_pos _)]
  constructor
  · intro hsel
    refine ⟨fun j hj => ?_, fun j hj => ?_⟩
    · have hbit := hsel (24 + j) (by omega)
      rw [(hmask _ (by omega)).1, (hmask _ (by omega)).2] at hbit
      simpa using hbit
    · have hbit := hsel (row.format.zeroField.2 + j) (by omega)
      rw [(hmask _ (by omega)).1, (hmask _ (by omega)).2] at hbit
      have hlow : ¬ 24 ≤ row.format.zeroField.2 + j := by omega
      have hle : row.format.zeroField.2 + j ≤ row.format.zeroField.1 := by omega
      simpa [hlow, hle] using hbit
  · rintro ⟨hopbits, hzero⟩ i hi
    rw [(hmask i hi).1, (hmask i hi).2]
    by_cases h24 : 24 ≤ i
    · have hbit := hopbits (i - 24) (by omega)
      rw [Nat.add_sub_cancel' h24] at hbit
      simp [h24, hbit]
    · by_cases hfield : row.format.zeroField.2 ≤ i ∧ i ≤ row.format.zeroField.1
      · have hbit := hzero (i - row.format.zeroField.2) (by omega)
        rw [Nat.add_sub_cancel' hfield.1] at hbit
        simp [h24, hbit]
      · simp [h24, hfield]

theorem opcodeMap_op_injective : ∀ row ∈ opcodeMap, ∀ other ∈ opcodeMap, other.op = row.op → other = row := by decide

/-! ### The packets each format's decoder accepts (R61) -/

variable {p : Packet}

theorem decodeZ_accepts_iff (j : Instr) :
    (∃ i, decodeZ j p = .ok i) ↔ bits p.header 23 0 = 0 ∧ p.payload.length = 0 := by
  simp [decodeZ_eq_ok]

theorem decodeL_accepts_iff (mk : List Word → Instr) :
    (∃ i, decodeL mk p = .ok i) ↔ bits p.header 23 9 = 0 ∧ p.payload.length = bits p.header 8 0 := by
  simp [decodeL_eq_ok]

theorem decodeU_accepts_iff :
    (∃ i, decodeU p = .ok i) ↔ bits p.header 19 0 = 0 ∧ p.payload.length = 0 := by
  simp [decodeU_eq_ok]

theorem decodeRN_accepts_iff :
    (∃ i, decodeRN p = .ok i) ↔ bits p.header 19 1 = 0 ∧ p.payload.length = bits p.header 0 0 := by
  have hbe := bits_lt p.header 0 0
  simp only [decodeRN_eq_ok]
  constructor
  · rintro ⟨_, hz, budget, hlen, hp, -⟩
    exact ⟨hz, hp ▸ hlen.symm⟩
  · rintro ⟨hz, hlen⟩
    rw [← hlen] at hbe ⊢
    rcases hp : p.payload with _ | ⟨w, _ | ⟨w', ws⟩⟩
    · exact ⟨_, hz, none, rfl, rfl, rfl⟩
    · exact ⟨_, hz, some w, rfl, rfl, rfl⟩
    · rw [hp, List.length_cons, List.length_cons] at hbe
      omega

/-- What a Custom fill's payload is, cut at its tap words (R55, R60). -/
theorem custom_payload_iff {ws : List Word} {tc : Nat} :
    (∃ taps chars : List Word, taps.length = tc ∧ chars.length < 2 ^ 32 ∧
      ws = taps ++ BitVec.ofNat 32 chars.length :: chars) ↔ ws.length = tc + 1 + (ws.getD tc 0#32).toNat := by
  constructor
  · rintro ⟨taps, chars, rfl, hlt, rfl⟩
    simp [flen_toNat hlt, -BitVec.toNat_ofNat]
    omega
  · intro hlen
    have htc : tc < ws.length := by omega
    have hget : ws.getD tc 0#32 = ws[tc] := by simp [htc]
    rw [hget] at hlen
    have hchars : (ws.drop (tc + 1)).length = (ws[tc]).toNat := by rw [List.length_drop]; omega
    refine ⟨ws.take tc, ws.drop (tc + 1), List.length_take_of_le htc.le, hchars ▸ (ws[tc]).isLt, ?_⟩
    rw [hchars, BitVec.ofNat_toNat, BitVec.setWidth_eq, List.getElem_cons_drop, List.take_append_drop]

theorem decodeC_accepts_iff :
    (∃ i, decodeC p = .ok i) ↔ bits p.header 9 9 = 0 ∧ bits p.header 19 18 ≠ 3 ∧
      p.payload.length = if bits p.header 19 18 = 2
        then bits p.header 17 10 + 1 + (p.payload.getD (bits p.header 17 10) 0#32).toNat
        else bits p.header 17 10 := by
  have hlt := bits_lt p.header 19 18
  simp only [decodeC_eq_ok]
  constructor
  · rintro ⟨_, hz, taps, fill, htc, hfpol, hwf, hp, -⟩
    refine ⟨hz, by have := fill.fpol_lt; omega, ?_⟩
    cases fill with
    | allOnes => simp [← hfpol, hp, Fill.fpol, Fill.words, htc]
    | random => simp [← hfpol, hp, Fill.fpol, Fill.words, htc]
    | custom chars =>
      rw [if_pos (show _ = 2 from hfpol.symm)]
      exact custom_payload_iff.mp ⟨taps, chars, htc, of_decide_eq_true hwf, hp⟩
  · rintro ⟨hz, h3, hlen⟩
    split_ifs at hlen with h2
    · obtain ⟨taps, chars, htc, hwf, hp⟩ := custom_payload_iff.mpr hlen
      exact ⟨_, hz, taps, .custom chars, htc, h2.symm, decide_eq_true hwf, hp, rfl⟩
    · obtain h0 | h1 : bits p.header 19 18 = 0 ∨ bits p.header 19 18 = 1 := by omega
      · exact ⟨_, hz, p.payload, .allOnes, hlen, h0.symm, rfl, (List.append_nil _).symm, rfl⟩
      · exact ⟨_, hz, p.payload, .random, hlen, h1.symm, rfl, (List.append_nil _).symm, rfl⟩

/-! ### Legal packets (R62, R64) -/

/-- A packet with a listed opcode is a command exactly when the must-be-zero bits of the opcode's format are zero, it is no
LCFG with the reserved FPOL, and its payload is as long as R61 expects. -/
theorem decode_accepts_iff {row : OpRow} (hrow : row ∈ opcodeMap) (hop : bits p.header 31 24 = row.op) :
    (∃ i, decode p = .ok i) ↔ row.format.zeroBits p.header = 0 ∧
      ¬ (bits p.header 31 24 = 0x20 ∧ bits p.header 19 18 = 3) ∧
      p.payload.length = expectedPayload p.header fun k => p.payload.getD k 0#32 := by
  simp only [decode_eq_ok, expectedPayload, hop]
  simp only [opcodeMap, List.mem_cons, List.not_mem_nil, or_false] at hrow
  rcases hrow with rfl | rfl | rfl | rfl | rfl | rfl | rfl | rfl | rfl | rfl <;>
    simp [Format.zeroBits, Format.zeroField, decodeZ_accepts_iff, decodeL_accepts_iff, decodeC_accepts_iff,
      decodeU_accepts_iff, decodeRN_accepts_iff]

/-- The opcode of an accepted packet is that of the row with the command's mnemonic. -/
theorem exists_row_of_decode {i : Instr} (h : decode p = .ok i) :
    ∃ row ∈ opcodeMap, row.mnemonic = i.mnemonic ∧ bits p.header 31 24 = row.op := by
  obtain ⟨hwf, rfl⟩ := decode_eq_ok_iff_encode.mp h
  cases i with
  | nop => exact Laws.EncodedOpcode.nop hwf
  | addt => exact Laws.EncodedOpcode.addt hwf
  | adde => exact Laws.EncodedOpcode.adde hwf
  | and => exact Laws.EncodedOpcode.and hwf
  | xor => exact Laws.EncodedOpcode.xor hwf
  | lda cs => exact Laws.EncodedOpcode.lda cs hwf
  | ldb cs => exact Laws.EncodedOpcode.ldb cs hwf
  | lcfg u ns taps fill => exact Laws.EncodedOpcode.lcfg u ns taps fill hwf
  | step u => exact Laws.EncodedOpcode.step u hwf
  | run u budget => exact Laws.EncodedOpcode.run u budget hwf

/-- Settles O4: a selected row has the packet's opcode and must-be-zero bits, and an accepted packet's opcode is listed. -/
theorem legalPacketsAreTheOpcodeMaps : Obligations.LegalPacketsAreTheOpcodeMaps := by
  intro p
  constructor
  · rintro ⟨i, h⟩
    obtain ⟨row, hrow, -, hop⟩ := exists_row_of_decode h
    obtain ⟨hzero, hrest⟩ := (decode_accepts_iff hrow hop).mp ⟨i, h⟩
    exact ⟨⟨row, hrow, (selects_iff_fields hrow _).mpr ⟨hop, hzero⟩⟩, hrest⟩
  · rintro ⟨⟨row, hrow, hsel⟩, hrest⟩
    obtain ⟨hop, hzero⟩ := (selects_iff_fields hrow _).mp hsel
    exact (decode_accepts_iff hrow hop).mpr ⟨hzero, hrest⟩

/-- Settles O5: a row that selects the header has its opcode, and no two rows have the same. -/
theorem headerSelectsOneRow : Obligations.HeaderSelectsOneRow := by
  intro p i h
  obtain ⟨row, hrow, hname, hop⟩ := exists_row_of_decode h
  obtain ⟨hzero, -⟩ := (decode_accepts_iff hrow hop).mp ⟨i, h⟩
  refine ⟨row, hrow, hname, fun other hother => ⟨fun hsel => ?_, fun heq => ?_⟩⟩
  · obtain ⟨hop', -⟩ := (selects_iff_fields hother _).mp hsel
    exact opcodeMap_op_injective row hrow other hother (hop'.symm.trans hop)
  · exact heq ▸ (selects_iff_fields hrow _).mpr ⟨hop, hzero⟩

/-- Settles O3: each word is the header of its command, and each payload the command's. -/
theorem workedEncodingsDecode : Obligations.WorkedEncodingsDecode :=
  ⟨decodeOfEncode (.lda [0x30#32, 0x31#32, 0x30#32, 0x31#32]) rfl,
    decodeOfEncode (.lcfg 0 8 [8#32, 6#32, 5#32, 4#32] .allOnes) rfl,
    decodeOfEncode (.lcfg 0 4 [4#32, 3#32] (.custom [0x31#32, 0x30#32, 0x30#32, 0x31#32])) rfl,
    decodeOfEncode (.step 0) rfl,
    decodeOfEncode (.run 0 none) rfl,
    decodeOfEncode (.run 0 (some 100#32)) rfl⟩

end Sys2Proof

namespace Sys2Proof.Machine

/-! ### Illegal packets (R64) -/

/-- R64: an ISSUE of a packet the decoder refuses raises IllegalCommand. -/
theorem transact_issue_of_decode_error {p : Packet} {why : Reject} (h : decode p = .error why) (s : State) :
    transact (.issue p) s = .next (s.raise .illegalCommand) := by
  simp only [transact, h]

/-- Settles O6: the step takes the ISSUE off the queue, and the ISSUE raises IllegalCommand, whose code is 11. -/
theorem illegalPacketOnlyWritesErr : Obligations.IllegalPacketOnlyWritesErr := by
  intro s p why rest hpending hdecode
  calc
    step s = transact (.issue p) { s with pending := rest } := step_of_pending_cons hpending
    _ = .next { s with pending := rest, err := 11#8 } := transact_issue_of_decode_error hdecode _

end Sys2Proof.Machine
end

section
/-! The register-read map (30_encoding.md R66), id by id. -/

namespace Sys2Proof.Machine

/-- Settles O38: each id names its register, and the ids 0x09 to 0x0F none. -/
theorem arithmeticReadMap : Obligations.ArithmeticReadMap := by
  intro s
  have herr : (s.err.setWidth 32).toNat = s.err.toNat := BitVec.toNat_setWidth_of_le (by norm_num)
  refine ⟨rfl, ⟨_, rfl, herr⟩, rfl, rfl, rfl, rfl, rfl, rfl, rfl, fun k h9 h15 => ?_⟩
  have hreserved : regOf (BitVec.ofNat 8 k) = .reserved := by interval_cases k <;> rfl
  rw [State.readReg, hreserved]

/-- The ids of instance `u` name its registers in R66's order, and those past LASTRUN nothing. -/
theorem regOf_id_of_unit {u d : Nat} (hu : u < 15) (hd : d < 16) :
    regOf (BitVec.ofNat 8 (0x10 * (u + 1) + d)) = (lfsrRegOf d).elim .reserved (.lfsr u) := by
  have hid : (BitVec.ofNat 8 (0x10 * (u + 1) + d)).toNat = 0x10 * (u + 1) + d := Nat.mod_eq_of_lt (by omega)
  have hhi : (0x10 * (u + 1) + d) / 16 = u + 1 := by omega
  have hlo : (0x10 * (u + 1) + d) % 16 = d := by omega
  simp only [regOf, hid, hhi, hlo]
  cases lfsrRegOf d <;> simp

theorem lfsrRegOf_eq_none {d : Nat} (h10 : 10 ≤ d) (h16 : d < 16) : lfsrRegOf d = none := by interval_cases d <;> rfl

theorem readReg_of_reserved {s : State} {id : Byte} (h : regOf id = .reserved) : s.readReg id = .word 0#32 := by
  simp [State.readReg, h]

theorem Lfsr.tapmask_eq (l : Lfsr) : l.tapmask = (List.range l.n).map fun i => decide (i ∈ l.taps) := by
  simp [Lfsr.tapmask]

/-- Settles O39: below the width a counter reads as itself, and an id that names no register, or one of an absent instance,
as the word 0. -/
theorem lfsrReadMap : Obligations.LfsrReadMap := by
  intro s u hu id
  refine ⟨fun habsent d hd => ?_, fun l hl hwidth => ?_⟩
  · cases hreg : lfsrRegOf d with
    | none => exact readReg_of_reserved (by rw [regOf_id_of_unit hu hd, hreg]; rfl)
    | some f =>
      have hid : regOf (id d) = .lfsr u f := by rw [regOf_id_of_unit hu hd, hreg]; rfl
      simp [State.readReg, hid, List.getElem?_eq_none habsent]
  · have hread (f : LfsrReg) : s.readReg (id f.offset) = l.read s.params u f := readReg_lfsrId hu hl f
    have hseq : pastWidth s.params l.seq.length = false := pastWidth_eq_false fun w hw => (hwidth w hw).1
    have hrep : pastWidth s.params l.replen = false := pastWidth_eq_false fun w hw => (hwidth w hw).2.1
    have hrun : pastWidth s.params l.lastrun = false := pastWidth_eq_false fun w hw => (hwidth w hw).2.2
    refine ⟨hread .lstatus, hread .n, ?_, hread .stages, ?_, hread .seq, hread .fp, ?_, ?_, ?_, fun d h10 h16 => ?_⟩
    · exact (hread .tapmask).trans (by rw [Lfsr.read, Lfsr.tapmask_eq])
    · refine (hread .seqlen).trans (congrArg ReadValue.number (counterRead_eq _ ?_))
      split
      · exact hseq
      · exact pastWidth_zero _
    · exact (hread .replen).trans (congrArg ReadValue.number (Lfsr.replenRead_eq hrep))
    · exact (hread .period).trans (congrArg ReadValue.number (Lfsr.periodRead_eq hrep))
    · exact (hread .lastrun).trans (congrArg ReadValue.number (counterRead_eq _ hrun))
    · exact readReg_of_reserved (by rw [regOf_id_of_unit hu h16, lfsrRegOf_eq_none h10 h16]; rfl)

end Sys2Proof.Machine
end

section
/-! The operand checks of the arithmetic commands (40_bitvector.md R69, R73), and AND and XOR bit by bit (R70, R71). -/

namespace Sys2Proof.Machine

/-! ### The two errors -/

theorem arithmetic_noOperand {s : State} (op : Nat → Nat → Nat → Nat × Nat) (h : s.a.valid = false ∨ s.b.valid = false) :
    arithmetic op s = .next (s.raise .noOperand) := by
  rw [arithmetic, operands_noOperand h, finish_error]

theorem arithmetic_lengthMismatch {s : State} (op : Nat → Nat → Nat → Nat × Nat) (ha : s.a.valid = true)
    (hb : s.b.valid = true) (hl : s.a.vec.len ≠ s.b.vec.len) : arithmetic op s = .next (s.raise .lengthMismatch) := by
  rw [arithmetic, operands_lengthMismatch ha hb hl, finish_error]

/-- Settles O21: each of the four commands is `arithmetic` of an operation, and the checks do not look at the operation. -/
theorem arithmeticErrors : Obligations.ArithmeticErrors := by
  intro i hi s
  obtain ⟨op, hop⟩ := exec_arithmetic hi
  rw [hop s]
  exact ⟨arithmetic_noOperand op, arithmetic_lengthMismatch op⟩

/-! ### The bitwise commands -/

section
variable {s : State} (ha : s.a.valid = true) (hb : s.b.valid = true) (hl : s.a.vec.len = s.b.vec.len)
include ha hb hl

theorem arithmetic_ok (op : Nat → Nat → Nat → Nat × Nat) :
    arithmetic op s =
      .next (s.setResult (BitString.ofNat s.a.vec.len (op s.a.vec.len s.a.vec.val s.b.vec.val).1)
        (op s.a.vec.len s.a.vec.val s.b.vec.val).2).succeed := by
  rw [arithmetic, operands_ok ha hb hl, finish_ok]

/-- A command that writes the bitwise combination `f` of its operands and no pass count completes, and no bit of the
combination is cut off (R70, R71). -/
theorem arithmetic_bitwise {f : Nat → Nat → Nat} {g : Bool → Bool → Bool}
    (hlt : ∀ {x y n}, x < 2 ^ n → y < 2 ^ n → f x y < 2 ^ n)
    (hbit : ∀ x y p, (f x y).testBit p = g (x.testBit p) (y.testBit p)) :
    ∃ v, arithmetic (fun _ x y => (f x y, 0)) s = .next { s with r := ⟨true, v⟩, passes := 0, err := 0#8 } ∧
      v.len = s.a.vec.len ∧ ∀ p, v.val.testBit p = g (s.a.vec.val.testBit p) (s.b.vec.val.testBit p) := by
  refine ⟨.ofNat s.a.vec.len (f s.a.vec.val s.b.vec.val), arithmetic_ok ha hb hl _, rfl, fun p => ?_⟩
  have hfits : f s.a.vec.val s.b.vec.val < 2 ^ s.a.vec.len := hlt s.a.vec.val_lt (hl ▸ s.b.vec.val_lt)
  rw [BitString.ofNat_val, Nat.mod_eq_of_lt hfits, hbit]

end

/-- Settles O26: AND is bitwise on values, and what it gives is below 2^L as its operands are. -/
theorem andIsBitwise : Obligations.AndIsBitwise :=
  fun _ ha hb hl => arithmetic_bitwise ha hb hl (fun _ hy => Nat.and_lt_two_pow _ hy) Nat.testBit_and

/-- Settles O27: exclusive OR is bitwise on values, and what it gives is below 2^L as its operands are. -/
theorem xorIsBitwise : Obligations.XorIsBitwise :=
  fun _ ha hb hl => arithmetic_bitwise ha hb hl Nat.xor_lt_two_pow Nat.testBit_xor

end Sys2Proof.Machine
end

section
/-! The addition pass and the two adders in closed form (41_adder.md R72 to R79). -/

namespace Sys2Proof.Machine

/-! ### The addition pass (R72) -/

theorem pass_sum_lt (x y len : Nat) : (pass x y len).1 < 2 ^ len := by
  induction len with
  | zero => simp
  | succ p ih =>
    have hbit : (bitAt x p + bitAt y p + (pass x y p).2) % 2 ≤ 1 := by omega
    have hweighted := Nat.mul_le_mul_right (2 ^ p) hbit
    simp only [pass_succ, pow_succ]
    omega

section
variable {x y len : Nat} (hx : x < 2 ^ len) (hy : y < 2 ^ len)
include hx hy

theorem pass_eq : pass x y len = ((x + y) % 2 ^ len, (x + y) / 2 ^ len) := by
  have hsum := pass_conserves x y len
  rw [Nat.mod_eq_of_lt hx, Nat.mod_eq_of_lt hy, Nat.mul_comm] at hsum
  obtain ⟨hcarry, hlow⟩ := (Nat.div_mod_unique (Nat.two_pow_pos len)).mpr ⟨hsum, pass_sum_lt x y len⟩
  exact Prod.ext hlow.symm hcarry.symm

theorem pass_of_lt (h : x + y < 2 ^ len) : pass x y len = (x + y, 0) := by
  rw [pass_eq hx hy, Nat.mod_eq_of_lt h, Nat.div_eq_of_lt h]

theorem pass_of_ge (h : 2 ^ len ≤ x + y) : pass x y len = (x + y - 2 ^ len, 1) := by
  have hlt : x + y - 2 ^ len < 2 ^ len := by omega
  rw [pass_eq hx hy, Nat.mod_eq_sub_mod h, Nat.mod_eq_of_lt hlt, Nat.div_eq_sub_div (Nat.two_pow_pos len) h,
    Nat.div_eq_of_lt hlt]

end

/-- Settles O22: the conservation law of a pass is division with remainder by 2^L. -/
theorem passAddsExactly : Obligations.PassAddsExactly := by
  intro x y len hx hy
  rw [pass_eq hx hy]
  exact ⟨rfl, rfl, Nat.div_add_mod' (x + y) (2 ^ len)⟩

/-! ### The end-around sum (R78) -/

/-- R78's second closed form, for any modulus `m` and any sum: 0 for 0, else ((s - 1) mod m) + 1. -/
def endAroundSum (m : Nat) : Nat → Nat
  | 0 => 0
  | s + 1 => s % m + 1

section
variable {m s : Nat}

@[simp] theorem endAroundSum_zero (m : Nat) : endAroundSum m 0 = 0 := rfl

theorem endAroundSum_succ (m s : Nat) : endAroundSum m (s + 1) = s % m + 1 := rfl

theorem endAroundSum_of_pos (h : 1 ≤ s) : endAroundSum m s = (s - 1) % m + 1 := by
  obtain ⟨k, rfl⟩ := Nat.exists_eq_add_of_le' h
  rfl

theorem endAroundSum_of_le (h : s ≤ m) : endAroundSum m s = s := by
  cases s with
  | zero => rfl
  | succ k => rw [endAroundSum_succ, Nat.mod_eq_of_lt h]

theorem endAroundSum_of_gt (h : m < s) (h2 : s ≤ 2 * m) : endAroundSum m s = s - m := by
  rw [endAroundSum_of_pos (by omega), Nat.mod_eq_sub_mod (by omega), Nat.mod_eq_of_lt (by omega)]
  omega

theorem endAroundSum_le (h : s ≤ 2 * m) : endAroundSum m s ≤ m := by
  by_cases hs : s ≤ m
  · exact (endAroundSum_of_le hs).trans_le hs
  · rw [endAroundSum_of_gt (by omega) h]
    omega

@[simp] theorem endAroundSum_eq_zero_iff : endAroundSum m s = 0 ↔ s = 0 := by
  cases s <;> simp [endAroundSum_succ]

@[simp] theorem endAroundSum_mod (m s : Nat) : endAroundSum m s % m = s % m := by
  cases s with
  | zero => rfl
  | succ k => rw [endAroundSum_succ, Nat.mod_add_mod]

/-- A multiple of `m` other than 0 is folded to `m`, not to 0. -/
theorem endAroundSum_of_dvd (h2 : s ≤ 2 * m) (hs : s ≠ 0) (hd : m ∣ s) : endAroundSum m s = m := by
  refine Nat.le_antisymm (endAroundSum_le h2) (Nat.le_of_dvd (Nat.pos_of_ne_zero (by simpa)) ?_)
  exact Nat.dvd_of_mod_eq_zero (by rw [endAroundSum_mod, Nat.mod_eq_zero_of_dvd hd])

/-- Folding a summand first changes nothing: why any bracketing of a sum gives the same result (R80). -/
@[simp] theorem endAroundSum_endAroundSum_add (m a b : Nat) :
    endAroundSum m (endAroundSum m a + b) = endAroundSum m (a + b) := by
  cases a with
  | zero => rfl
  | succ k =>
    calc
      endAroundSum m (k % m + 1 + b) = endAroundSum m (k % m + b + 1) := by rw [Nat.add_right_comm]
      _ = endAroundSum m (k + b + 1) := by rw [endAroundSum_succ, endAroundSum_succ, Nat.mod_add_mod]
      _ = endAroundSum m (k + 1 + b) := by rw [Nat.add_right_comm]

end

/-! ### The two commands -/

/-- ADDE's loop in closed form (R78, R79): the first pass is all when the sum fits, else the second adds the wrap. -/
theorem endAround_eq {x y len : Nat} (hx : x < 2 ^ len) (hy : y < 2 ^ len) :
    endAround len x y = (endAroundSum (2 ^ len - 1) (x + y), if x + y < 2 ^ len then 1 else 2) := by
  by_cases h : x + y < 2 ^ len
  · rw [endAround, pass_of_lt hx hy h, foldBack_zero_wrap, if_pos h, endAroundSum_of_le (by omega)]
  · have hsecond : pass (x + y - 2 ^ len) 1 len = (x + y - 2 ^ len + 1, 0) :=
      pass_of_lt (by omega) (by omega) (by omega)
    rw [endAround, pass_of_ge hx hy (by omega), foldBack, if_neg one_ne_zero, hsecond, foldBack_zero_wrap, if_neg h,
      endAroundSum_of_gt (by omega) (by omega)]
    congr 1
    omega

theorem BitString.val_le (v : BitString) : v.val ≤ 2 ^ v.len - 1 := Nat.le_sub_one_of_lt v.val_lt

theorem BitString.ofNat_val_of_le {len v : Nat} (h : v ≤ 2 ^ len - 1) : (BitString.ofNat len v).val = v := by
  have := Nat.two_pow_pos len
  rw [BitString.ofNat_val, Nat.mod_eq_of_lt (by omega)]

/-- A BitVector is its length and its value (R14). -/
theorem BitString.ofNat_len_val (v : BitString) : BitString.ofNat v.len v.val = v :=
  BitString.ext_val rfl (BitString.ofNat_val_of_le v.val_le)

@[simp] theorem BitString.ones_len (len : Nat) : (BitString.ones len).len = len := rfl

@[simp] theorem BitString.ones_val (len : Nat) : (BitString.ones len).val = 2 ^ len - 1 :=
  BitString.ofNat_val_of_le le_rfl

section
variable {s : State} (ha : s.a.valid = true) (hb : s.b.valid = true) (hl : s.a.vec.len = s.b.vec.len)
include ha hb hl

/-- ADDT on valid operands of one length writes the sum modulo 2^L (R77). -/
theorem exec_addt_ok :
    exec .addt s = .next (s.setResult (.ofNat s.a.vec.len ((s.a.vec.val + s.b.vec.val) % 2 ^ s.a.vec.len)) 1).succeed := by
  simp only [exec, execAddt, arithmetic_ok ha hb hl, pass_eq s.a.vec.val_lt (hl ▸ s.b.vec.val_lt)]

/-- ADDE on valid operands of one length writes their end-around sum (R78) and one or two passes (R79). -/
theorem exec_adde_ok :
    exec .adde s =
      .next (s.setResult (.ofNat s.a.vec.len (endAroundSum (2 ^ s.a.vec.len - 1) (s.a.vec.val + s.b.vec.val)))
        (if s.a.vec.val + s.b.vec.val < 2 ^ s.a.vec.len then 1 else 2)).succeed := by
  simp only [exec, execAdde, arithmetic_ok ha hb hl, endAround_eq s.a.vec.val_lt (hl ▸ s.b.vec.val_lt)]

end

/-- Settles O23: ADDT's one pass keeps the remainder of the sum and discards the carry-out. -/
theorem addtAddsModulo : Obligations.AddtAddsModulo := by
  intro s ha hb hl
  exact ⟨_, exec_addt_ok ha hb hl, rfl, by simp⟩

/-- Settles O24: each clause is a property of the end-around sum. -/
theorem addeClosedForm : Obligations.AddeClosedForm := by
  intro s ha hb hl _ sum m
  have hpow : 2 ^ (s.a.vec.len + 1) = 2 * 2 ^ s.a.vec.len := pow_succ' 2 _
  have hpos := Nat.two_pow_pos s.a.vec.len
  have hx : s.a.vec.val ≤ m := s.a.vec.val_le
  have hy : s.b.vec.val ≤ m := s.b.vec.val_le.trans_eq (by rw [← hl])
  have hsum : sum ≤ 2 * m := by omega
  have hval := BitString.ofNat_val_of_le (endAroundSum_le hsum)
  refine ⟨by omega, _, exec_adde_ok ha hb hl, rfl, ?_⟩
  rw [hval]
  refine ⟨?fits, ?wraps, ?ofZero, endAroundSum_of_pos, ?zeroIff, ?range, Nat.zero_mod m, ?onesMod, ?multiple⟩
  case fits => exact fun h => endAroundSum_of_le (by omega)
  case wraps =>
    intro h
    rw [endAroundSum_of_gt (by omega) hsum]
    omega
  case ofZero => exact endAroundSum_eq_zero_iff.mpr
  case zeroIff => exact endAroundSum_eq_zero_iff.trans Nat.add_eq_zero_iff
  case range => exact fun h => ⟨Nat.pos_of_ne_zero h, endAroundSum_le hsum, endAroundSum_mod m sum⟩
  case onesMod =>
    rw [BitString.ones_val]
    exact Nat.mod_self m
  case multiple =>
    intro hne hd
    refine BitString.ext_val rfl ?_
    rw [hval, BitString.ones_val]
    exact endAroundSum_of_dvd hsum hne (Nat.dvd_of_mod_eq_zero hd)

/-- Settles O25: the first pass is one of two cases, by whether the sum fits in L bits. -/
theorem addePassesAndTermination : Obligations.AddePassesAndTermination := by
  intro s ha hb hl len sum first
  have hx : s.a.vec.val < 2 ^ len := s.a.vec.val_lt
  have hy : s.b.vec.val < 2 ^ len := s.b.vec.val_lt.trans_eq (by rw [← hl])
  have hsecond : (pass first.1 first.2 len).2 = 0 := pass_wrap_carry_eq_zero s.a.vec.val s.b.vec.val len
  have hexec : ∃ t, exec .adde s = .next t ∧ (sum < 2 ^ len → t.passes = 1) ∧ (2 ^ len ≤ sum → t.passes = 2) :=
    ⟨_, exec_adde_ok ha hb hl, fun h => if_pos h, fun h => if_neg h.not_gt⟩
  by_cases h : 2 ^ len ≤ sum
  · have hwrap : first = (sum - 2 ^ len, 1) := pass_of_ge hx hy h
    have hbound : sum - 2 ^ len ≤ 2 ^ len - 2 := by omega
    exact ⟨by simp [hwrap, h], fun _ => ⟨by rw [hwrap], by rwa [hwrap], hsecond⟩, hexec⟩
  · have hfits : first = (sum, 0) := pass_of_lt hx hy (Nat.lt_of_not_le h)
    exact ⟨by simp [hfits, h], by simp [hfits], hexec⟩

end Sys2Proof.Machine
end

section
/-! The laws of the two adders as operations on BitVectors (41_adder.md R80 to R82). -/

namespace Sys2Proof.Machine

/-! ### What R holds after ADDT and ADDE -/

section
variable {x y : BitString} (h : x.len = y.len) (s : State)
include h

theorem resultOf_addt : resultOf .addt x y s = .ofNat x.len ((x.val + y.val) % 2 ^ x.len) := by
  rw [resultOf, exec_addt_ok rfl rfl h]
  rfl

theorem resultOf_adde : resultOf .adde x y s = .ofNat x.len (endAroundSum (2 ^ x.len - 1) (x.val + y.val)) := by
  rw [resultOf, exec_adde_ok rfl rfl h]
  rfl

theorem resultOf_addt_len : (resultOf .addt x y s).len = x.len := by rw [resultOf_addt h, BitString.ofNat_len]

theorem resultOf_adde_len : (resultOf .adde x y s).len = x.len := by rw [resultOf_adde h, BitString.ofNat_len]

theorem resultOf_addt_val : (resultOf .addt x y s).val = (x.val + y.val) % 2 ^ x.len := by
  rw [resultOf_addt h, BitString.ofNat_val, Nat.mod_mod]

theorem resultOf_adde_val : (resultOf .adde x y s).val = endAroundSum (2 ^ x.len - 1) (x.val + y.val) := by
  have hx := x.val_le
  have hy := y.val_le
  rw [← h] at hy
  rw [resultOf_adde h, BitString.ofNat_val_of_le (endAroundSum_le (by omega))]

end

/-! ### Commutativity and associativity (R80) -/

section
variable {i : Instr} {s : State} (fold : Nat → Nat → Nat)
  (hlen : ∀ {x y : BitString}, x.len = y.len → (resultOf i x y s).len = x.len)
  (hval : ∀ {x y : BitString}, x.len = y.len → (resultOf i x y s).val = fold x.len (x.val + y.val))
include hlen hval

/-- A command whose result depends on the sum of its operands alone is commutative. -/
theorem resultOf_comm_of_sum {x y : BitString} (hxy : x.len = y.len) : resultOf i x y s = resultOf i y x s := by
  refine BitString.ext_val ?_ ?_
  · rw [hlen hxy, hlen hxy.symm, hxy]
  · rw [hval hxy, hval hxy.symm, hxy, Nat.add_comm]

/-- It is associative when folding a summand first does not change what the sum is folded to. -/
theorem resultOf_assoc_of_sum (hfold : ∀ len a b, fold len (fold len a + b) = fold len (a + b)) {x y z : BitString}
    (hxy : x.len = y.len) (hyz : y.len = z.len) :
    resultOf i (resultOf i x y s) z s = resultOf i x (resultOf i y z s) s := by
  have hleft : (resultOf i x y s).len = z.len := by rw [hlen hxy, hxy, hyz]
  have hright : x.len = (resultOf i y z s).len := by rw [hlen hyz, hxy]
  refine BitString.ext_val ?_ ?_
  · rw [hlen hleft, hlen hxy, hlen hright]
  · calc
      (resultOf i (resultOf i x y s) z s).val = fold x.len (fold x.len (x.val + y.val) + z.val) := by
        rw [hval hleft, hlen hxy, hval hxy]
      _ = fold x.len (x.val + y.val + z.val) := hfold _ _ _
      _ = fold x.len (y.val + z.val + x.val) := by rw [Nat.add_assoc, Nat.add_comm]
      _ = fold x.len (fold x.len (y.val + z.val) + x.val) := (hfold _ _ _).symm
      _ = (resultOf i x (resultOf i y z s) s).val := by rw [hval hright, hval hyz, hxy, Nat.add_comm x.val]

end

/-- Settles O28: what either adder gives depends on the sum alone, and its fold to L bits may be taken at any bracketing. -/
theorem addersCommuteAndAssociate : Obligations.AddersCommuteAndAssociate := by
  intro i hi s x y z hxy hyz
  simp only [List.mem_cons, List.not_mem_nil, or_false] at hi
  obtain rfl | rfl := hi
  case inl =>
    exact ⟨resultOf_comm_of_sum (fun len sum => sum % 2 ^ len) (resultOf_addt_len · s) (resultOf_addt_val · s) hxy,
      resultOf_assoc_of_sum (fun len sum => sum % 2 ^ len) (resultOf_addt_len · s) (resultOf_addt_val · s)
        (fun len a b => Nat.mod_add_mod a (2 ^ len) b) hxy hyz⟩
  case inr =>
    exact ⟨resultOf_comm_of_sum (fun len => endAroundSum (2 ^ len - 1)) (resultOf_adde_len · s)
        (resultOf_adde_val · s) hxy,
      resultOf_assoc_of_sum (fun len => endAroundSum (2 ^ len - 1)) (resultOf_adde_len · s) (resultOf_adde_val · s)
        (fun len => endAroundSum_endAroundSum_add (2 ^ len - 1)) hxy hyz⟩

/-! ### The identities of the checksums (R81) -/

@[simp] theorem BitString.flip_len (v : BitString) : v.flip.len = v.len := rfl

@[simp] theorem BitString.flip_val (v : BitString) : v.flip.val = 2 ^ v.len - 1 - v.val :=
  BitString.ofNat_val_of_le (Nat.sub_le _ _)

/-- A value and its complement sum to `1^L`. -/
theorem BitString.val_add_flip_val (v : BitString) : v.val + v.flip.val = 2 ^ v.len - 1 := by
  rw [v.flip_val, Nat.add_sub_cancel' v.val_le]

/-- Settles O29: a sum of x and 0, or of x and NOT x, fits; 2^L - 1 plus x wraps unless x is 0. -/
theorem adderIdentities : Obligations.AdderIdentities := by
  intro s x hlen
  have hpow : 1 < 2 ^ x.len := Nat.one_lt_two_pow (by omega)
  have hx := x.val_le
  have hflip := x.val_add_flip_val
  refine ⟨?addZero, ⟨_, exec_adde_ok rfl rfl rfl, ?addFlip, if_pos ?addFlipFits⟩, ?onesAdd, ?onesAddZero, ?addtFlip,
    ?addtFlipOne⟩
  case addZero =>
    rw [resultOf_adde (BitString.ofNat_len x.len 0).symm, BitString.ofNat_val, Nat.zero_mod, Nat.add_zero,
      endAroundSum_of_le hx, BitString.ofNat_len_val]
  case addFlip => exact congrArg (BitString.ofNat x.len) ((endAroundSum_of_le hflip.le).trans hflip)
  case addFlipFits => exact hflip.trans_lt (Nat.sub_one_lt_of_lt hpow)
  case onesAdd =>
    intro hne
    rw [resultOf_adde (BitString.ones_len x.len), BitString.ones_len, BitString.ones_val,
      endAroundSum_of_gt (by omega) (by omega), Nat.add_sub_cancel_left, BitString.ofNat_len_val]
  case onesAddZero =>
    rw [resultOf_adde (y := .ofNat x.len 0) (BitString.ones_len x.len), BitString.ones_len, BitString.ones_val,
      BitString.ofNat_val, Nat.zero_mod, Nat.add_zero, endAroundSum_of_le le_rfl, BitString.ones]
  case addtFlip =>
    rw [resultOf_addt x.flip_len.symm, hflip, Nat.mod_eq_of_lt (Nat.sub_one_lt_of_lt hpow), BitString.ones]
  case addtFlipOne =>
    rw [resultOf_addt_val (y := .ofNat x.len 1) x.flip_len, x.flip_len, x.flip_val, BitString.ofNat_val,
      Nat.mod_eq_of_lt hpow]
    congr 1
    omega

/-! ### Equal operands (R82) -/

/-- The value of a string: its first bit has the greatest weight. -/
theorem bitsValue_cons (b : Bool) (bs : List Bool) : bitsValue (b :: bs) = b.toNat * 2 ^ bs.length + bitsValue bs := by
  induction bs using List.reverseRecOn with
  | nil => simp [bitsValue]
  | append_singleton bs c ih =>
    rw [← List.cons_append, bitsValue_append_singleton, ih, bitsValue_append_singleton, List.length_append,
      List.length_singleton, pow_succ]
    ring

/-- The bits of a value below weight 2^len, most significant first, have that value (R14). -/
theorem bitsValue_map_testBit (v len : Nat) :
    bitsValue ((List.range len).map fun i => v.testBit (len - 1 - i)) = v % 2 ^ len := by
  induction len with
  | zero => simp [bitsValue, Nat.mod_one]
  | succ len ih =>
    have htail : (List.range len).map ((fun i => v.testBit (len + 1 - 1 - i)) ∘ Nat.succ) =
        (List.range len).map fun i => v.testBit (len - 1 - i) :=
      List.map_congr_left fun i _ => congrArg v.testBit (by omega)
    rw [List.range_succ_eq_map, List.map_cons, List.map_map, htail, bitsValue_cons, ih, List.length_map, List.length_range,
      Nat.add_sub_cancel, Nat.sub_zero, mod_pow_succ_bitAt, bitAt, Nat.add_comm]

@[simp] theorem BitString.bitsValue_toBits (v : BitString) : bitsValue v.toBits = v.val := by
  rw [BitString.toBits, bitsValue_map_testBit, Nat.mod_eq_of_lt v.val_lt]

theorem rotateLeft_one_cons {α : Type} (b : α) (bs : List α) : (b :: bs).rotateLeft 1 = bs ++ [b] := by
  cases bs <;> simp [List.rotateLeft]

/-- ADDE of a string and itself: the doubled tail of the string, and its first bit, which the wrap brings to the end. -/
theorem resultOf_adde_self {x : BitString} {b : Bool} {bs : List Bool} (hbits : x.toBits = b :: bs) (s : State) :
    resultOf .adde x x s = BitString.ofBits (bs ++ [b]) := by
  have hlen : x.len = bs.length + 1 := by rw [← x.toBits_length, hbits, List.length_cons]
  have hval : x.val = b.toNat * 2 ^ bs.length + bitsValue bs := by rw [← x.bitsValue_toBits, hbits, bitsValue_cons]
  have htail := bitsValue_lt bs
  refine BitString.ext_val (by simp [resultOf_adde_len, hlen]) ?_
  rw [resultOf_adde_val rfl, BitString.ofBits_val, bitsValue_append_singleton, hval, hlen, pow_succ]
  cases b with
  | false =>
    simp only [Bool.toNat_false]
    rw [endAroundSum_of_le (by omega)]
    omega
  | true =>
    simp only [Bool.toNat_true]
    rw [endAroundSum_of_gt (by omega) (by omega)]
    omega

/-- Settles O30: 2x wraps exactly when the first bit of x is 1. -/
theorem sameOperandTwice : Obligations.SameOperandTwice := by
  intro s x hlen
  have hpow : 2 ^ x.len = 2 * 2 ^ (x.len - 1) := (mul_pow_sub_one (by omega) 2).symm
  have hpos := Nat.two_pow_pos (x.len - 1)
  have hx := x.val_le
  obtain ⟨b, bs, hbits⟩ := List.exists_cons_of_length_pos (hlen.trans_eq x.toBits_length.symm)
  rw [resultOf_addt_val rfl, resultOf_adde_val rfl, ← Nat.two_mul]
  refine ⟨rfl, fun h => endAroundSum_of_le (by omega), fun h => ?_, ?_⟩
  · rw [endAroundSum_of_gt (by omega) (by omega)]
    omega
  · rw [resultOf_adde_self hbits, BitString.toBits_ofBits, hbits, rotateLeft_one_cons]

end Sys2Proof.Machine
end

section
/-! The checksum pseudo-operations command by command (42_checksum.md): the values of digit strings, and what
`loadBothThen` gives for each arithmetic command, its errors included (R105). -/

namespace Sys2Proof.Machine

/-! ### Strings of digits and their values (R14, R58, R97) -/

@[simp] theorem length_chars (bs : List Bool) : (chars bs).length = bs.length := List.length_map _

@[simp] theorem digit_charWord (b : Bool) : digit (charWord b) = b := by cases b <;> rfl

@[simp] theorem map_digit_chars (bs : List Bool) : (chars bs).map digit = bs := by
  simp [chars, Function.comp_def]

theorem digitsOk_chars (bs : List Bool) : digitsOk (chars bs) := by
  intro c hc
  obtain ⟨b, -, rfl⟩ := List.mem_map.mp hc
  cases b <;> simp [charWord]

/-- The first character has the greatest weight (R97). -/
theorem charsValue_cons (c : Word) (cs : List Word) :
    charsValue (c :: cs) = (digit c).toNat * 2 ^ cs.length + charsValue cs := by
  have hfirst : (if (c :: cs)[0]? = some 0x31#32 then 1 else 0) = (digit c).toNat := by
    by_cases h : c = 0x31#32 <;> simp [digit_eq_decide, h]
  rw [charsValue, List.length_cons, List.range_succ_eq_map, List.map_cons, List.sum_cons, List.map_map, hfirst,
    Nat.add_sub_cancel, Nat.sub_zero]
  refine congrArg (_ + List.sum ·) (List.map_congr_left fun k _ => ?_)
  rw [Function.comp_apply, Nat.succ_eq_add_one, List.getElem?_cons_succ, Nat.sub_sub, Nat.add_comm 1 k]

/-- R97's sum is the value of the string of the characters' digits (R14). -/
theorem charsValue_eq (cs : List Word) : charsValue cs = bitsValue (cs.map digit) := by
  induction cs with
  | nil => rfl
  | cons c cs ih => rw [charsValue_cons, List.map_cons, bitsValue_cons, List.length_map, ih]

@[simp] theorem charsValue_chars (bs : List Bool) : charsValue (chars bs) = bitsValue bs := by
  rw [charsValue_eq, map_digit_chars]

theorem charsValue_lt (cs : List Word) : charsValue cs < 2 ^ cs.length := by
  simpa [charsValue_eq] using bitsValue_lt (cs.map digit)

/-- Two strings of one length and one value are equal (R13). -/
theorem bits_ext_value {bs cs : List Bool} (hl : bs.length = cs.length) (h : bitsValue bs = bitsValue cs) : bs = cs := by
  have hvec : BitString.ofBits bs = BitString.ofBits cs := BitString.ext_val hl (by simpa using h)
  simpa using congrArg BitString.toBits hvec

@[simp] theorem length_zeros (len : Nat) : (zeros len).length = len := List.length_replicate

@[simp] theorem bitsValue_zeros (len : Nat) : bitsValue (zeros len) = 0 := by
  induction len with
  | zero => rfl
  | succ len ih => simpa [zeros, List.replicate_succ, bitsValue_cons] using ih

@[simp] theorem bitsValue_replicate_true (len : Nat) : bitsValue (List.replicate len true) = 2 ^ len - 1 := by
  induction len with
  | zero => rfl
  | succ len ih =>
    have := Nat.two_pow_pos len
    rw [List.replicate_succ, bitsValue_cons, List.length_replicate, ih, pow_succ, Bool.toNat_true]
    omega

/-- Flipping every bit complements the value (R83). -/
theorem bitsValue_map_not (bs : List Bool) : bitsValue (bs.map not) = 2 ^ bs.length - 1 - bitsValue bs := by
  induction bs with
  | nil => rfl
  | cons b bs ih =>
    have := bitsValue_lt bs
    rw [List.map_cons, bitsValue_cons, bitsValue_cons, List.length_map, ih, List.length_cons, pow_succ]
    cases b <;> simp only [Bool.not_false, Bool.not_true, Bool.toNat_true, Bool.toNat_false] <;> omega

/-- The complement of a string of digits has a 1 where the string has the character '0'. -/
theorem map_not_digit {cs : List Word} (h : digitsOk cs) :
    (cs.map digit).map not = cs.map fun c => decide (c = 0x30#32) := by
  rw [List.map_map]
  refine List.map_congr_left fun c hc => ?_
  rcases h c hc with rfl | rfl <;> decide

/-- Exclusive OR with 1^L complements a value (R71). -/
theorem xor_two_pow_sub_one {x len : Nat} (h : x < 2 ^ len) : x ^^^ (2 ^ len - 1) = 2 ^ len - 1 - x := by
  refine Nat.eq_of_testBit_eq fun p => ?_
  rw [Nat.testBit_xor, Nat.testBit_two_pow_sub_one, Nat.sub_sub, Nat.add_comm 1 x, Nat.testBit_two_pow_sub_succ h]
  by_cases hp : p < len
  · simp [hp]
  · have hhigh : x.testBit p = false :=
      Nat.testBit_lt_two_pow (h.trans_le (Nat.pow_le_pow_right (by decide) (Nat.le_of_not_lt hp)))
    simp [hp, hhigh]

/-! ### Words that a load takes (R97, R98) -/

/-- In state `s` a load takes `x` and the register loaded then holds `len` bits: `x` is `len` digits, 1 to LMAX of them. -/
structure State.Takes (s : State) (len : Nat) (x : List Word) : Prop where
  pos : 1 ≤ len
  le_lmax : len ≤ s.params.lmax
  length_eq : x.length = len
  digits : digitsOk x

namespace State.Takes
variable {s t : State} {len : Nat} {x : List Word}

theorem of_params (h : s.Takes len x) (hp : t.params = s.params) : t.Takes len x := { h with le_lmax := hp ▸ h.le_lmax }

theorem chars (h : s.Takes len x) {bs : List Bool} (hl : bs.length = len) : s.Takes len (chars bs) :=
  { h with length_eq := by rw [length_chars, hl], digits := digitsOk_chars bs }

theorem ones (h : s.Takes len x) : s.Takes len (ones len) := h.chars List.length_replicate

theorem oneAtEnd (h : s.Takes len x) : s.Takes len (oneAtEnd len) := h.chars (by simp [Nat.sub_add_cancel h.pos])

theorem value_lt (h : s.Takes len x) : charsValue x < 2 ^ len := h.length_eq ▸ charsValue_lt x

/-- The BitVector a load writes. -/
theorem ofBits_eq (h : s.Takes len x) : BitString.ofBits (x.map digit) = .ofNat len (charsValue x) := by
  rw [BitString.ofBits, ← charsValue_eq, List.length_map, h.length_eq]

theorem exec_lda (h : s.Takes len x) : exec (.lda x) s = .next (s.loadA (.ofNat len (charsValue x))).succeed := by
  rw [exec_lda_of_digitsOk (h.pos.trans_eq h.length_eq.symm) (h.length_eq.trans_le h.le_lmax) h.digits, h.ofBits_eq]

theorem exec_ldb (h : s.Takes len x) : exec (.ldb x) s = .next (s.loadB (.ofNat len (charsValue x))).succeed := by
  rw [exec_ldb_of_digitsOk (h.pos.trans_eq h.length_eq.symm) (h.length_eq.trans_le h.le_lmax) h.digits, h.ofBits_eq]

end State.Takes

@[simp] theorem charsValue_ones (len : Nat) : charsValue (ones len) = 2 ^ len - 1 := by
  rw [ones, charsValue_chars, bitsValue_replicate_true]

@[simp] theorem charsValue_oneAtEnd (len : Nat) : charsValue (oneAtEnd len) = 1 := by
  simp [oneAtEnd]

/-! ### Issuing a command (R105) -/

section
variable {i : Instr} {s t : State} {next : State → HostResult}

theorem issueThen_of_succeed (h : exec i s = .next t.succeed) : issueThen i s next = next t.succeed := by
  simp [issueThen, h]

theorem issueThen_of_raise {e : ErrorCode} (h : exec i s = .next (s.raise e)) :
    issueThen i s next = .failed e.code (s.raise e) := by
  simp [issueThen, h, e.code_ne_zero]

end

theorem exec_lda_of_error {s : State} {x : List Word} {e : ErrorCode} (h : loadOperand s.params.lmax x = .error e) :
    exec (.lda x) s = .next (s.raise e) := by
  simp only [exec, execLda, h, Except.map, finish_error]

theorem exec_ldb_of_error {s : State} {x : List Word} {e : ErrorCode} (h : loadOperand s.params.lmax x = .error e) :
    exec (.ldb x) s = .next (s.raise e) := by
  simp only [exec, execLdb, h, Except.map, finish_error]

/-! ### Two loads and an arithmetic command -/

/-- The state after both loads have succeeded. -/
def State.withLoaded (s : State) (v w : BitString) : State := ((s.loadA v).succeed.loadB w).succeed

section
variable {i : Instr} {s : State} {len len' : Nat} {x y : List Word} {e : ErrorCode}
  {next : List Bool → State → HostResult}

theorem loadBothThen_of_takes (hx : s.Takes len x) (hy : s.Takes len' y) :
    loadBothThen i x y s next =
      issueThen i (s.withLoaded (.ofNat len (charsValue x)) (.ofNat len' (charsValue y)))
        fun t => next (t.readString 0x08#8) t := by
  have hy' := hy.of_params (t := (s.loadA (.ofNat len (charsValue x))).succeed) rfl
  rw [loadBothThen, issueThen_of_succeed hx.exec_lda, issueThen_of_succeed hy'.exec_ldb, State.withLoaded]

/-- The error of the first load ends the sequence (R105). -/
theorem loadBothThen_of_lda_error (h : loadOperand s.params.lmax x = .error e) :
    loadBothThen i x y s next = .failed e.code (s.raise e) :=
  issueThen_of_raise (exec_lda_of_error h)

/-- So does the error of the second load. -/
theorem loadBothThen_of_ldb_error (hx : s.Takes len x) (h : loadOperand s.params.lmax y = .error e) :
    ∃ t, loadBothThen i x y s next = .failed e.code t := by
  have hraise := exec_ldb_of_error (s := (s.loadA (.ofNat len (charsValue x))).succeed) h
  exact ⟨_, by rw [loadBothThen, issueThen_of_succeed hx.exec_lda, issueThen_of_raise hraise]⟩

/-- Two words of different lengths end in LengthMismatch (R73). -/
theorem loadBothThen_lengthMismatch (hi : i ∈ arithmeticCommands) (hx : s.Takes len x) (hy : s.Takes len' y)
    (hne : len ≠ len') : ∃ t, loadBothThen i x y s next = .failed ErrorCode.lengthMismatch.code t := by
  obtain ⟨op, hop⟩ := exec_arithmetic hi
  rw [loadBothThen_of_takes hx hy, issueThen_of_raise ((hop _).trans (arithmetic_lengthMismatch op rfl rfl hne))]
  exact ⟨_, rfl⟩

end

/-- `issue LDA x; issue LDB y; issue i; read(R)` from `s` gives `z`, of the length of `x` and the value `v`, and leaves
the block in `t`, with `passes` in PASSES. -/
structure Gives (i : Instr) (x y : List Word) (s : State) (v passes : Nat) (z : List Bool) (t : State) : Prop where
  params : t.params = s.params
  passes_eq : t.passes = passes
  length_eq : z.length = x.length
  value_eq : bitsValue z = v
  run : ∀ next, loadBothThen i x y s next = next z t

namespace Gives
variable {i : Instr} {x y w : List Word} {s t : State} {len v passes : Nat} {z : List Bool}

/-- What a load takes before, it takes after. -/
theorem takes (g : Gives i x y s v passes z t) (hw : s.Takes len w) : t.Takes len w := hw.of_params g.params

theorem takes_result (g : Gives i x y s v passes z t) (hx : s.Takes len x) : t.Takes len (chars z) :=
  (g.takes hx).chars (g.length_eq.trans hx.length_eq)

end Gives

section
variable {s : State} {len : Nat} {x y : List Word} (hx : s.Takes len x)
include hx

/-- Two words of one length: R is what the command's operation makes of their values, if that fits in R. -/
theorem gives_of_op {i : Instr} {op : Nat → Nat → Nat → Nat × Nat} (hop : ∀ t, exec i t = arithmetic op t)
    (hy : s.Takes len y) {v passes : Nat} (hv : op len (charsValue x) (charsValue y) = (v, passes)) (hfits : v < 2 ^ len) :
    ∃ z t, Gives i x y s v passes z t := by
  let loaded := s.withLoaded (.ofNat len (charsValue x)) (.ofNat len (charsValue y))
  have hexec : exec i loaded = .next (loaded.setResult (.ofNat len v) passes).succeed := by
    rw [hop, arithmetic_ok rfl rfl rfl]
    simp [loaded, State.withLoaded, Nat.mod_eq_of_lt hx.value_lt, Nat.mod_eq_of_lt hy.value_lt, hv]
  exact ⟨(BitString.ofNat len v).toBits, (loaded.setResult (.ofNat len v) passes).succeed,
    { params := rfl
      passes_eq := rfl
      length_eq := by simp [hx.length_eq]
      value_eq := by simp [Nat.mod_eq_of_lt hfits]
      run := fun next => by rw [loadBothThen_of_takes hx hy, issueThen_of_succeed hexec]; rfl }⟩

theorem gives_addt (hy : s.Takes len y) :
    ∃ z t, Gives .addt x y s ((charsValue x + charsValue y) % 2 ^ len) 1 z t :=
  gives_of_op (op := fun len x y => ((pass x y len).1, 1)) hx (fun _ => rfl) hy
    (by simp only [pass_eq hx.value_lt hy.value_lt]) (Nat.mod_lt _ (Nat.two_pow_pos len))

theorem gives_adde (hy : s.Takes len y) :
    ∃ z t, Gives .adde x y s (endAroundSum (2 ^ len - 1) (charsValue x + charsValue y))
      (if charsValue x + charsValue y < 2 ^ len then 1 else 2) z t := by
  have hxlt := hx.value_lt
  have hylt := hy.value_lt
  have hle : endAroundSum (2 ^ len - 1) (charsValue x + charsValue y) ≤ 2 ^ len - 1 := endAroundSum_le (by omega)
  exact gives_of_op hx (fun _ => rfl) hy (endAround_eq hxlt hylt) (by omega)

/-- AND with 1^L changes nothing (R70, R85). -/
theorem gives_and_ones : ∃ z t, Gives .and x (ones len) s (charsValue x) 0 z t :=
  gives_of_op (op := fun _ x y => (x &&& y, 0)) hx (fun _ => rfl) hx.ones
    (by simp only [charsValue_ones, Nat.and_two_pow_sub_one_of_lt_two_pow hx.value_lt]) hx.value_lt

/-- XOR with 1^L complements (R71, R83). -/
theorem gives_xor_ones : ∃ z t, Gives .xor x (ones len) s (2 ^ len - 1 - charsValue x) 0 z t :=
  gives_of_op (op := fun _ x y => (x ^^^ y, 0)) hx (fun _ => rfl) hx.ones
    (by simp only [charsValue_ones, xor_two_pow_sub_one hx.value_lt])
    (by have := Nat.two_pow_pos len; omega)

end

end Sys2Proof.Machine
end

section
/-! NOT, TWOS and the integrity check (42_checksum.md R83, R84, R87). -/

namespace Sys2Proof.Machine

/-- A load's two errors end a sequence that begins with it (R83, R84, R105). -/
theorem loadBothThen_first_errors (i : Instr) (x y : List Word) (s : State) (next : List Bool → State → HostResult) :
    (x.length = 0 ∨ s.params.lmax < x.length → ∃ t, loadBothThen i x y s next = .failed 6#8 t) ∧
    (1 ≤ x.length → x.length ≤ s.params.lmax → ¬ digitsOk x → ∃ t, loadBothThen i x y s next = .failed 2#8 t) :=
  ⟨fun h => ⟨_, loadBothThen_of_lda_error (loadOperand_invalidLength h)⟩,
    fun h1 h2 hd => ⟨_, loadBothThen_of_lda_error (loadOperand_invalidDigit (by omega) ((not_digitsOk_iff x).mp hd))⟩⟩

/-- Settles O53: XOR with 1^L complements the value, and the complement's string is the one with every bit flipped. -/
theorem notFlipsEveryBit : Obligations.NotFlipsEveryBit := by
  intro s x
  refine ⟨fun h1 h2 hd => ?_, loadBothThen_first_errors ..⟩
  obtain ⟨y, t, g⟩ := gives_xor_ones (s := s) ⟨h1, h2, rfl, hd⟩
  have hflipped : bitsValue ((x.map digit).map not) = 2 ^ x.length - 1 - charsValue x := by
    rw [bitsValue_map_not, List.length_map, charsValue_eq]
  refine ⟨y, t, g.run .value, ?_, g.value_eq⟩
  rw [← map_not_digit hd]
  exact bits_ext_value (by simp [g.length_eq]) (g.value_eq.trans hflipped.symm)

/-- ADDE with 0^(N-1)1 adds 1 in one pass, but to `1^N` end-around in two (R78, R84). -/
theorem gives_twos {s : State} {len : Nat} {y : List Word} (hy : s.Takes len y) :
    ∃ z t, Gives .adde y (oneAtEnd y.length) s (if charsValue y = 2 ^ len - 1 then 1 else charsValue y + 1)
      (if charsValue y = 2 ^ len - 1 then 2 else 1) z t := by
  have hlt := hy.value_lt
  have hpow : 1 < 2 ^ len := Nat.one_lt_two_pow (by have := hy.pos; omega)
  have hvalue : endAroundSum (2 ^ len - 1) (charsValue y + 1) =
      if charsValue y = 2 ^ len - 1 then 1 else charsValue y + 1 := by
    split
    · rw [endAroundSum_of_gt (by omega) (by omega)]
      omega
    · exact endAroundSum_of_le (by omega)
  have hpasses : (if charsValue y + 1 < 2 ^ len then 1 else 2) = if charsValue y = 2 ^ len - 1 then 2 else 1 := by
    split <;> split <;> omega
  have hadde := gives_adde hy hy.oneAtEnd
  rw [charsValue_oneAtEnd, hvalue, hpasses] at hadde
  rwa [hy.length_eq]

/-- The string of `len` bits whose value is 1. -/
theorem eq_zeros_append_one {z : List Bool} {len : Nat} (hlen : 1 ≤ len) (hl : z.length = len) (hv : bitsValue z = 1) :
    z = zeros (len - 1) ++ [true] :=
  bits_ext_value (by simp [hl, Nat.sub_add_cancel hlen]) (by simp [hv])

/-- Settles O54: 1 is added in one pass, unless the word is `1^N`. -/
theorem twosAddsOneEndAround : Obligations.TwosAddsOneEndAround := by
  intro s y
  refine ⟨fun h1 h2 hd => ?_, loadBothThen_first_errors ..⟩
  obtain ⟨z, t, g⟩ := gives_twos (s := s) ⟨h1, h2, rfl, hd⟩
  refine ⟨z, t, g.run .value, g.length_eq, fun hne => ?_, fun hones => ?_⟩
  · exact ⟨g.value_eq.trans (if_neg hne), g.passes_eq.trans (if_neg hne)⟩
  · exact ⟨eq_zeros_append_one h1 g.length_eq (g.value_eq.trans (if_pos hones)), g.passes_eq.trans (if_pos hones)⟩

/-- Settles O58: TWOS(NOT x) is 2^L - x for x other than 0, whose sum with x wraps to 1, and 1 for x = 0. -/
theorem integrityCheckGivesOne : Obligations.IntegrityCheckGivesOne := by
  intro s x h1 h2 hd
  have hx : s.Takes x.length x := ⟨h1, h2, rfl, hd⟩
  have hlt := hx.value_lt
  have hpow : 1 < 2 ^ x.length := Nat.one_lt_two_pow (by omega)
  obtain ⟨y, s1, gnot⟩ := gives_xor_ones hx
  obtain ⟨z, s2, gtwos⟩ := gives_twos (gnot.takes_result hx)
  obtain ⟨one, t, gcheck⟩ := gives_adde (gtwos.takes (gnot.takes hx)) (gtwos.takes_result (gnot.takes_result hx))
  obtain ⟨allOnes, t', gones⟩ := gives_adde (gnot.takes hx) (gnot.takes_result hx)
  have hnot : charsValue (chars y) = 2 ^ x.length - 1 - charsValue x := by rw [charsValue_chars, gnot.value_eq]
  have hall : charsValue x + charsValue (chars y) = 2 ^ x.length - 1 := by rw [hnot]; omega
  have hsum : charsValue x + charsValue (chars z) = if charsValue x = 0 then 1 else 2 ^ x.length := by
    rw [charsValue_chars, gtwos.value_eq, hnot]
    split <;> split <;> omega
  have hone : bitsValue one = 1 := by
    rw [gcheck.value_eq, hsum]
    split
    · exact endAroundSum_of_le (by omega)
    · rw [endAroundSum_of_gt (by omega) (by omega)]
      omega
  have hstring := eq_zeros_append_one h1 gcheck.length_eq hone
  have hallOnes : allOnes = List.replicate x.length true :=
    bits_ext_value (by simp [gones.length_eq])
      (by rw [gones.value_eq, hall, endAroundSum_of_le le_rfl, bitsValue_replicate_true])
  refine ⟨y, z, s1, s2, t, t', gnot.run .value, gtwos.run .value, hstring ▸ gcheck.run .value, fun h => ?wraps,
    fun h => ?fits, fun h => ?notZeros, hallOnes ▸ gones.run .value⟩
  case wraps => rw [gcheck.passes_eq, hsum, if_neg h, if_neg (lt_irrefl _)]
  case fits => rw [gcheck.passes_eq, hsum, if_pos h, if_pos hpow]
  case notZeros => simpa using congrArg bitsValue h

end Sys2Proof.Machine
end

section
/-! LRC and CSUM (42_checksum.md R85, R86): what each loop has accumulated after any number of good words, and where a bad
one stops it (R105). -/

namespace Sys2Proof.Machine

/-! ### The loops after good words -/

/-- LRC's loop accumulates the sum modulo 2^L, whatever words follow. -/
theorem lrcLoop_append {len : Nat} {good : List (List Word)} {lrc : List Bool} {s : State} (hlrc : s.Takes len (chars lrc))
    (hgood : ∀ d ∈ good, s.Takes len d) :
    ∃ sum t, t.params = s.params ∧ t.Takes len (chars sum) ∧
      bitsValue sum = (bitsValue lrc + (good.map charsValue).sum) % 2 ^ len ∧
      ∀ rest next, lrcLoop len (good ++ rest) lrc s next = lrcLoop len rest sum t next := by
  induction good generalizing lrc s with
  | nil =>
    have hlt := hlrc.value_lt
    rw [charsValue_chars] at hlt
    exact ⟨lrc, s, rfl, hlrc, (Nat.mod_eq_of_lt hlt).symm, fun _ _ => rfl⟩
  | cons d good ih =>
    obtain ⟨hd, hgood⟩ := List.forall_mem_cons.mp hgood
    obtain ⟨sum, s1, gadd⟩ := gives_addt hlrc hd
    obtain ⟨lrc', s2, gand⟩ := gives_and_ones (gadd.takes_result hlrc)
    obtain ⟨total, t, hparams, htakes, hvalue, hrun⟩ :=
      ih (gand.takes_result (gadd.takes_result hlrc)) fun d' hd' => gand.takes (gadd.takes (hgood d' hd'))
    refine ⟨total, t, by rw [hparams, gand.params, gadd.params], htakes, ?_, fun rest next => ?_⟩
    · rw [hvalue, gand.value_eq, charsValue_chars, gadd.value_eq, Nat.mod_add_mod, charsValue_chars, List.map_cons,
        List.sum_cons, Nat.add_assoc]
    · rw [List.cons_append, lrcLoop, gadd.run, gand.run, hrun]

/-- CSUM's loop accumulates the end-around sum, whatever words follow. -/
theorem csumLoop_append {len : Nat} {good : List (List Word)} {c : List Bool} {s : State} (hc : s.Takes len (chars c))
    (hgood : ∀ d ∈ good, s.Takes len d) :
    ∃ sum t, t.params = s.params ∧ t.Takes len (chars sum) ∧
      bitsValue sum = endAroundSum (2 ^ len - 1) (bitsValue c + (good.map charsValue).sum) ∧
      ∀ rest, csumLoop (good ++ rest) c s = csumLoop rest sum t := by
  induction good generalizing c s with
  | nil =>
    have hlt := hc.value_lt
    rw [charsValue_chars] at hlt
    exact ⟨c, s, rfl, hc, (endAroundSum_of_le (Nat.le_sub_one_of_lt hlt)).symm, fun _ => rfl⟩
  | cons d good ih =>
    obtain ⟨hd, hgood⟩ := List.forall_mem_cons.mp hgood
    obtain ⟨c', s1, g⟩ := gives_adde hc hd
    obtain ⟨total, t, hparams, htakes, hvalue, hrun⟩ := ih (g.takes_result hc) fun d' hd' => g.takes (hgood d' hd')
    refine ⟨total, t, hparams.trans g.params, htakes, ?_, fun rest => ?_⟩
    · rw [hvalue, g.value_eq, endAroundSum_endAroundSum_add, charsValue_chars, List.map_cons, List.sum_cons, Nat.add_assoc]
    · rw [List.cons_append, csumLoop, g.run, hrun]

/-- CSUM of at least one good word goes on, whatever words follow, with their end-around sum. -/
theorem pseudoCsum_append {len : Nat} {good : List (List Word)} {s : State} (hne : good ≠ [])
    (hgood : ∀ d ∈ good, s.Takes len d) :
    ∃ sum t, t.params = s.params ∧ t.Takes len (chars sum) ∧
      bitsValue sum = endAroundSum (2 ^ len - 1) (good.map charsValue).sum ∧
      ∀ rest, pseudoCsum (good ++ rest) s = csumLoop rest sum t := by
  obtain ⟨d, good, rfl⟩ := List.exists_cons_of_ne_nil hne
  obtain ⟨hd, hgood⟩ := List.forall_mem_cons.mp hgood
  let first := BitString.ofNat len (charsValue d)
  have hfirst : bitsValue first.toBits = charsValue d := by simp [first, Nat.mod_eq_of_lt hd.value_lt]
  have hparams : (s.loadA first).succeed.params = s.params := rfl
  obtain ⟨sum, t, hparams', htakes, hvalue, hrun⟩ :=
    csumLoop_append ((hd.chars first.toBits_length).of_params hparams) fun d' hd' => (hgood d' hd').of_params hparams
  refine ⟨sum, t, hparams'.trans hparams, htakes, ?_, fun rest => ?_⟩
  · rw [hvalue, hfirst, List.map_cons, List.sum_cons]
  · rw [List.cons_append, pseudoCsum, issueThen_of_succeed hd.exec_lda]
    exact hrun rest

section
variable {s : State} {data : List (List Word)} {len : Nat} (h1 : 1 ≤ len) (h2 : len ≤ s.params.lmax)
include h1 h2

theorem takes_zeros : s.Takes len (chars (zeros len)) := ⟨h1, h2, by simp, digitsOk_chars _⟩

/-- The words of the statements are words that a load takes. -/
theorem takes_of_data (hdata : ∀ d ∈ data, d.length = len ∧ digitsOk d) : ∀ d ∈ data, s.Takes len d :=
  fun d hd => ⟨h1, h2, (hdata d hd).1, (hdata d hd).2⟩

end

/-! ### Good words alone -/

/-- Settles O55: the loop sums modulo 2^L, XOR with 1^L and ADDT of 1 negate, and AND with 1^L changes nothing. -/
theorem lrcNegatesTheSum : Obligations.LrcNegatesTheSum := by
  intro s data len h1 h2 hdata
  obtain ⟨sum, s1, -, hsum, hvalue, hloop⟩ := lrcLoop_append (takes_zeros h1 h2) (takes_of_data h1 h2 hdata)
  obtain ⟨flipped, s2, gxor⟩ := gives_xor_ones hsum
  have hflipped := gxor.takes_result hsum
  obtain ⟨negated, s3, gadd⟩ := gives_addt hflipped hflipped.oneAtEnd
  have hnegated := gadd.takes_result hflipped
  obtain ⟨z, t, gand⟩ := gives_and_ones hnegated
  refine ⟨z, t, ?_, gand.length_eq.trans hnegated.length_eq, ?_⟩
  · rw [pseudoLrc, ← List.append_nil data, hloop, lrcLoop, gxor.run, gadd.run, gand.run]
  · have hlt : (data.map charsValue).sum % 2 ^ len < 2 ^ len := Nat.mod_lt _ (Nat.two_pow_pos len)
    rw [gand.value_eq, charsValue_chars, gadd.value_eq, charsValue_oneAtEnd, charsValue_chars, gxor.value_eq,
      charsValue_chars, hvalue, bitsValue_zeros, Nat.zero_add]
    congr 1
    omega

/-- Settles O56: the end-around sum depends on the sum of the words alone, which no order changes. -/
theorem csumFoldsEndAround : Obligations.CsumFoldsEndAround := by
  intro s data len h1 h2 hdata
  refine ⟨fun hnil => hnil ▸ rfl, fun hne => ?_⟩
  have hgood := takes_of_data h1 h2 hdata
  obtain ⟨z, t, -, hz, hvalue, hrun⟩ := pseudoCsum_append hne hgood
  refine ⟨z, t, ?_, by simpa using hz.length_eq, fun h0 => ?_, fun hpos => ?_, fun other hperm => ?_⟩
  · rw [← List.append_nil data, hrun, csumLoop]
  · rw [hvalue, h0, endAroundSum_zero]
  · rw [hvalue, endAroundSum_of_pos hpos]
  · have hne' : other ≠ [] := fun h => hne (List.nil_perm.mp (h ▸ hperm))
    obtain ⟨z', t', -, hz', hvalue', hrun'⟩ := pseudoCsum_append hne' fun d hd => hgood d (hperm.mem_iff.mp hd)
    have hsame : z' = z := by
      refine bits_ext_value ?_ ?_
      · simpa using hz'.length_eq.trans hz.length_eq.symm
      · rw [hvalue', hvalue, (hperm.map charsValue).sum_eq]
    exact ⟨t', by rw [← List.append_nil other, hrun', csumLoop, hsame]⟩

/-! ### The first bad word -/

/-- No arithmetic command takes `bad` as its second operand after a word of `len` digits, in any state with the parameters
of `s`: the sequence fails with `code`. -/
def State.StopsAt (s : State) (len : Nat) (bad : List Word) (code : Byte) : Prop :=
  ∀ i ∈ arithmeticCommands, ∀ (x : List Word) (t : State) (next : List Bool → State → HostResult),
    t.params = s.params → t.Takes len x → ∃ t', loadBothThen i x bad t next = .failed code t'

section
variable {s : State} {good : List (List Word)} {bad : List Word} {rest : List (List Word)} {len : Nat}
  (h1 : 1 ≤ len) (h2 : len ≤ s.params.lmax) (hgood : ∀ d ∈ good, d.length = len ∧ digitsOk d)

theorem stopsAt_of_load_error {e : ErrorCode} (he : loadOperand s.params.lmax bad = .error e) :
    s.StopsAt len bad e.code := by
  intro i _ x t next hparams hx
  exact loadBothThen_of_ldb_error hx (by rwa [hparams])

theorem stopsAt_of_length_ne (hbad : s.Takes bad.length bad) (hne : bad.length ≠ len) :
    s.StopsAt len bad ErrorCode.lengthMismatch.code := by
  intro i hi x t next hparams hx
  exact loadBothThen_lengthMismatch hi hx (hbad.of_params hparams) hne.symm

include h1 h2 hgood

/-- LRC takes the good words and stops at the bad one (R85). -/
theorem pseudoLrc_stops {code : Byte} (hbad : s.StopsAt len bad code) :
    ∃ t, pseudoLrc (good ++ bad :: rest) len s = .failed code t := by
  obtain ⟨sum, t, hparams, hsum, -, hrun⟩ := lrcLoop_append (takes_zeros h1 h2) (takes_of_data h1 h2 hgood)
  rw [pseudoLrc, hrun, lrcLoop]
  exact hbad .addt (by decide) _ t _ hparams hsum

/-- CSUM takes the good words, if there are any, and stops at the bad one (R86). -/
theorem pseudoCsum_stops {code : Byte} (hbad : s.StopsAt len bad code) (hne : good ≠ []) :
    ∃ t, pseudoCsum (good ++ bad :: rest) s = .failed code t := by
  obtain ⟨sum, t, hparams, hsum, -, hrun⟩ := pseudoCsum_append hne (takes_of_data h1 h2 hgood)
  rw [hrun, csumLoop]
  exact hbad .adde (by decide) _ t _ hparams hsum

/-- A word that no load takes stops both, CSUM even as its first word, which it loads by LDA. -/
theorem checksums_stop_of_load_error {e : ErrorCode} (he : loadOperand s.params.lmax bad = .error e) :
    (∃ t, pseudoLrc (good ++ bad :: rest) len s = .failed e.code t) ∧
      ∃ t, pseudoCsum (good ++ bad :: rest) s = .failed e.code t := by
  have hstops : s.StopsAt len bad e.code := stopsAt_of_load_error he
  refine ⟨pseudoLrc_stops h1 h2 hgood hstops, ?_⟩
  by_cases hne : good = []
  · subst hne
    exact ⟨_, issueThen_of_raise (exec_lda_of_error he)⟩
  · exact pseudoCsum_stops h1 h2 hgood hstops hne

end

/-- Settles O57: the good words pass, and the first bad one ends the sequence at its load or at the addition. -/
theorem checksumsStopAtTheFirstError : Obligations.ChecksumsStopAtTheFirstError := by
  intro s good bad rest len h1 h2 hgood lrcStops csumStops
  refine ⟨fun hlength => ?_, fun hb1 hb2 hdigit => ?_, fun hb1 hb2 hdigits hne => ?_⟩
  · exact checksums_stop_of_load_error h1 h2 hgood (loadOperand_invalidLength hlength)
  · exact checksums_stop_of_load_error h1 h2 hgood
      (loadOperand_invalidDigit (by omega) ((not_digitsOk_iff bad).mp hdigit))
  · have hstops := stopsAt_of_length_ne ⟨hb1, hb2, rfl, hdigits⟩ hne
    exact ⟨pseudoLrc_stops h1 h2 hgood hstops, pseudoCsum_stops h1 h2 hgood hstops⟩

end Sys2Proof.Machine
end

section
/-! The three commands of the LFSR unit, outcome by outcome (43_lfsr.md R88 to R93): the errors of STEP and RUN, the cycle a
STEP performs, the cycles a RUN with a budget performs, and the recurrence the outputs obey. -/

namespace Sys2Proof.Machine

/-! ### The errors of STEP and RUN (R92, R93) -/

section
variable {s : State} {u : Nat}

theorem configured_of_length_le (h : s.lfsrs.length ≤ u) : s.configured u = .error .invalidUnit := by
  simp [State.configured, h]

theorem configured_of_unconfigured {l : Lfsr} (hl : s.lfsrs[u]? = some l) (hc : l.cfg = false) :
    s.configured u = .error .notConfigured := by
  simp [State.configured, hl, hc]

end

/-- STEP and RUN alike end in the error of selecting their instance. -/
theorem exec_step_or_run_of_error {s : State} {u : Fin 16} {budget : Option Word} {i : Instr} {e : ErrorCode}
    (hi : i ∈ [Instr.step u, Instr.run u budget]) (hs : s.configured u = .error e) : exec i s = .next (s.raise e) := by
  simp only [List.mem_cons, List.not_mem_nil, or_false] at hi
  obtain rfl | rfl := hi
  · simp only [exec, execStep, hs, finish_error]
  · exact exec_run_of_error budget hs

/-- Settles O43: the errors of selecting the instance, whose codes are 12 and 10. -/
theorem stepAndRunErrors : Obligations.StepAndRunErrors := by
  intro s u budget i hi
  exact ⟨fun hu => exec_step_or_run_of_error hi (configured_of_length_le hu),
    fun l hl hc => exec_step_or_run_of_error hi (configured_of_unconfigured hl hc)⟩

/-! ### The cycle of STEP (R88, R92) -/

/-- An exclusive OR is 1 exactly when an odd number of its terms are 1 (R16). -/
theorem tapSum_eq_parity (taps : List Nat) (cell : Nat → Bool) :
    tapSum taps cell = decide ((taps.filter cell).length % 2 = 1) := by
  induction taps using List.reverseRecOn with
  | nil => rfl
  | append_singleton taps i ih =>
    rw [tapSum_append_singleton, ih, List.filter_append, List.length_append]
    cases hi : cell i with
    | false => simp [hi]
    | true =>
      have hflip : (¬ (taps.filter cell).length % 2 = 1) ↔ ((taps.filter cell).length + 1) % 2 = 1 := by omega
      rw [Bool.xor_true, ← decide_not, List.filter_singleton, hi]
      exact decide_eq_decide.mpr hflip

theorem Lfsr.feedback_eq_parity (l : Lfsr) :
    l.feedback = decide ((l.taps.filter fun i => l.stages.getD i false).length % 2 = 1) :=
  l.feedback_eq_tapSum.trans (tapSum_eq_parity _ _)

section
variable {l : Lfsr}

/-- The first n outputs are captured on cycle n (R88). -/
theorem Lfsr.cycle_of_capture (hk : l.seq.length + 1 = l.n) :
    l.cycle = { l.shift with fp := l.shift.seq, fpv := true } := by
  obtain ⟨-, hc⟩ | ⟨hn, -, -⟩ | ⟨hn, -, -⟩ := l.cycle_cases
  · rw [hc, List.take_of_length_le (by simp [hk])]
  · omega
  · exact absurd hk hn

/-- A match writes REP, and REPLEN when REP was 0 (R88). -/
theorem Lfsr.cycle_of_match (hk : l.n ≤ l.seq.length) (hm : l.shift.seq.drop (l.seq.length + 1 - l.n) = l.fp) :
    l.cycle = { l.shift with rep := true, replen := if l.rep then l.replen else l.seq.length + 1 } := by
  obtain ⟨hn, -⟩ | ⟨-, -, hc⟩ | ⟨-, hnot, -⟩ := l.cycle_cases
  · omega
  · exact hc
  · exact absurd ⟨hk, hm⟩ hnot

/-- A match with REP already 1 writes nothing more (R88). -/
theorem Lfsr.cycle_of_match_again (hk : l.n ≤ l.seq.length) (hm : l.shift.seq.drop (l.seq.length + 1 - l.n) = l.fp)
    (hr : l.rep = true) : l.cycle = l.shift := by
  rw [Lfsr.cycle_of_match hk hm, if_pos hr, ← hr]
  rfl

/-- With no capture and no match a cycle only shifts (R88). -/
theorem Lfsr.cycle_of_no_match (hk : l.seq.length + 1 ≠ l.n)
    (hm : ¬ (l.n ≤ l.seq.length ∧ l.shift.seq.drop (l.seq.length + 1 - l.n) = l.fp)) : l.cycle = l.shift := by
  obtain ⟨hn, -⟩ | ⟨hle, hmatch, -⟩ | ⟨-, -, hc⟩ := l.cycle_cases
  · exact absurd hn hk
  · exact absurd ⟨hle, hmatch⟩ hm
  · exact hc

end

/-- Settles O42: the cycle shifts the parity of the tapped cells in, and its five cases are those of the fingerprint
logic. -/
theorem stepPerformsOneCycle : Obligations.StepPerformsOneCycle := by
  intro s u l hl hc fb seq k shifted
  have hfb : l.feedback = fb := l.feedback_eq_parity
  have hshift : l.shift = shifted := by simp only [Lfsr.shift, hfb, shifted, seq]
  have hseq : l.shift.seq = seq := by rw [hshift]
  have hk : k = l.seq.length + 1 := List.length_append
  refine ⟨l.cycle, exec_step_configured hl hc, ?_⟩
  rw [← hshift, ← hseq, hk]
  refine ⟨Lfsr.cycle_of_capture, fun hn hm hr => ?_, fun hn hm hr => ?_, fun hn hm => ?_, fun hn => ?_⟩
  · rw [Lfsr.cycle_of_match (Nat.le_of_lt_succ hn) hm, hr]
    rfl
  · exact Lfsr.cycle_of_match_again (Nat.le_of_lt_succ hn) hm hr
  · exact Lfsr.cycle_of_no_match (by omega) fun h => hm h.2
  · exact Lfsr.cycle_of_no_match (by omega) fun h => by omega

/-! ### RUN with a budget (R93) -/

/-- Settles O44: the loop ends at the repetition or at the budget. -/
theorem runWithBudget : Obligations.RunWithBudget := by
  intro s u l budget hl hc
  obtain ⟨e, hle, hbefore, hstop, hrun⟩ := exec_run_configured (some budget) hl hc
  rw [if_neg (by simp)] at hrun
  exact ⟨e, hle, hrun, hbefore, hstop, l.cycles_seq_length e⟩

/-! ### The recurrence of the outputs (R89) -/

/-- Settles O46: an output is the sum of the tapped cells of its cycle, and each cell is an earlier output or the fill's. -/
theorem outputRecurrence : Obligations.OutputRecurrence := by
  intro n taps fill htaps hfill l
  obtain ⟨-, -, hrange⟩ := htaps
  have hcell : ∀ k i, i < n →
      (l.cycles k).stages[i]? = some (if i < k then l.output (k - 1 - i) else fill.getD (i - k) false) := by
    intro k i hi
    have hfront : fill[i - k]? = some (fill.getD (i - k) false) := by simp [show i - k < fill.length by omega]
    rw [l.cycles_stages_getElem? hi]
    split
    · rfl
    · exact hfront
  refine ⟨l.cycles_seq, hcell, fun k => ?_⟩
  calc l.output k
    _ = tapSum taps fun i => (l.cycles k).stages.getD i false := by
      rw [Lfsr.output, Lfsr.feedback_eq_tapSum, Lfsr.cycles_taps]
      rfl
    _ = tapSum taps fun i => if i < k then l.output (k - 1 - i) else fill.getD (i - k) false :=
      tapSum_congr fun i hi => by rw [List.getD_eq_getElem?_getD, hcell k i (hrange i hi), Option.getD_some]
    _ = _ := List.foldl_map.symm

end Sys2Proof.Machine
end

section
/-! LCFG (43_lfsr.md R91): its checks in their order, and the instance it configures. -/

namespace Sys2Proof.Machine

/-! ### The checks one by one -/

/-- The words that pass LCFG's tap check are the tap exponents 1 to n (R59, R91). -/
theorem badTap_eq_false_iff {n : Nat} {w : Word} : badTap n w = false ↔ 1 ≤ w.toInt ∧ w.toInt ≤ n := by
  simp only [badTap, decide_eq_false_iff_not]
  omega

theorem any_badTap_eq_false_iff {n : Nat} {taps : List Word} :
    taps.any (badTap n) = false ↔ ∀ w ∈ taps, 1 ≤ w.toInt ∧ w.toInt ≤ n := by
  simp only [List.any_eq_false, Bool.not_eq_true, badTap_eq_false_iff]

section
variable {n u k : Nat} {cs : List Word}

theorem fillBits_custom_short (h : cs.length < n) : fillBits n u k (.custom cs) = .error .fillTooShort := by
  simp only [fillBits, if_pos h]

theorem fillBits_custom_invalidDigit (h : n ≤ cs.length) (hd : ¬ digitsOk cs) :
    fillBits n u k (.custom cs) = .error .invalidDigit := by
  simp only [fillBits, if_neg (Nat.not_lt.mpr h), if_pos ((not_digitsOk_iff cs).mp hd)]

theorem fillBits_custom_ok (h : n ≤ cs.length) (hd : digitsOk cs) :
    fillBits n u k (.custom cs) = .ok ((cs.take n).map digit) := by
  simp [fillBits, Nat.not_lt.mpr h, (digitsOk_iff cs).mp hd]

end

/-- A fill succeeds when a Custom one has n characters, all of them digits (R91). -/
theorem exists_fillBits_ok {n u k : Nat} {fill : Fill} (h : ∀ cs, fill = .custom cs → n ≤ cs.length ∧ digitsOk cs) :
    ∃ cells, fillBits n u k fill = .ok cells := by
  cases fill with
  | allOnes => exact ⟨_, rfl⟩
  | random => exact ⟨_, rfl⟩
  | custom cs => exact ⟨_, fillBits_custom_ok (h cs rfl).1 (h cs rfl).2⟩

section
variable {nmax u n : Nat} {old : Lfsr} {taps : List Word} {fill : Fill}

theorem configure_invalidStageCount (h : ¬ (1 ≤ n ∧ n ≤ nmax)) :
    configure nmax u old n taps fill = .error .invalidStageCount := by
  rw [configure, if_pos (by omega)]

section
variable (hn : 1 ≤ n ∧ n ≤ nmax)
include hn

theorem configure_emptyTaps (h : taps = []) : configure nmax u old n taps fill = .error .emptyTaps := by
  rw [configure, if_neg (by omega), if_pos (List.length_eq_zero_iff.mpr h)]

variable (ht : taps ≠ [])
include ht

theorem configure_invalidTapIndex (h : ¬ ∀ w ∈ taps, 1 ≤ w.toInt ∧ w.toInt ≤ n) :
    configure nmax u old n taps fill = .error .invalidTapIndex := by
  rw [configure, if_neg (by omega), if_neg (mt List.length_eq_zero_iff.mp ht),
    if_pos (by simpa using mt any_badTap_eq_false_iff.mp h)]

variable (hw : ∀ w ∈ taps, 1 ≤ w.toInt ∧ w.toInt ≤ n)
include hw

/-- When every check before the fill passes, the fill decides (R91). -/
theorem configure_eq_map_fillBits :
    configure nmax u old n taps fill = (fillBits n u old.draws fill).map fun cells =>
      { old with
        cfg := true, n := n, taps := tapSet n taps, stages := cells, seq := [], fpv := false, rep := false
        rundone := false, runrep := false, lastrun := 0
        draws := countDraw old.draws fill } := by
  rw [configure, if_neg (by omega), if_neg (mt List.length_eq_zero_iff.mp ht),
    if_neg (by simp [any_badTap_eq_false_iff.mpr hw])]
  cases fillBits n u old.draws fill <;> rfl

theorem configure_of_fillBits_error {e : ErrorCode} (h : fillBits n u old.draws fill = .error e) :
    configure nmax u old n taps fill = .error e := by
  rw [configure_eq_map_fillBits hn ht hw, h]
  rfl

end
end

/-! ### The command -/

section
variable {s : State} {u : Fin 16} {ns : Fin 512} {taps : List Word} {fill : Fill}

theorem exec_lcfg_invalidUnit (h : ¬ u.val < s.lfsrs.length) :
    exec (.lcfg u ns taps fill) s = .next (s.raise .invalidUnit) := by
  simp [exec, execLcfg, Nat.not_lt.mp h]

/-- On an instance that exists LCFG ends as its configuration does. -/
theorem exec_lcfg_of_lfsr {old : Lfsr} (h : s.lfsrs[u.val]? = some old) :
    exec (.lcfg u ns taps fill) s =
      finish s ((configure s.params.nmax u old ns taps fill).map (s.setLfsr u)) := by
  simp only [exec, execLcfg, State.lfsr?_eq, h]
  cases configure s.params.nmax u old ns taps fill <;> rfl

theorem exec_lcfg_of_error {e : ErrorCode} (hu : u.val < s.lfsrs.length)
    (h : ∀ old, configure s.params.nmax u old ns taps fill = .error e) :
    exec (.lcfg u ns taps fill) s = .next (s.raise e) := by
  rw [exec_lcfg_of_lfsr (List.getElem?_eq_getElem hu), h]
  rfl

end

/-- Settles O41: each check in its turn, the ones before it having passed. -/
theorem lcfgErrorsInOrder : Obligations.LcfgErrorsInOrder := by
  intro s u ns taps fill unitOk countOk tapsValid raises
  refine ⟨exec_lcfg_invalidUnit,
    fun hu hn => exec_lcfg_of_error hu fun _ => configure_invalidStageCount hn,
    fun hu hn ht => exec_lcfg_of_error hu fun _ => configure_emptyTaps hn ht,
    fun hu hn ht hw => exec_lcfg_of_error hu fun _ => configure_invalidTapIndex hn ht hw, ?_⟩
  rintro cs rfl hu hn ht hw
  exact ⟨fun hshort =>
      exec_lcfg_of_error hu fun _ => configure_of_fillBits_error hn ht hw (fillBits_custom_short hshort),
    fun hlong hd =>
      exec_lcfg_of_error hu fun _ => configure_of_fillBits_error hn ht hw (fillBits_custom_invalidDigit hlong hd)⟩

/-- The tap cells of words that pass the check: exponent i + 1 is cell i (R27, R91). -/
theorem mem_tapSet_iff_of_valid {n i : Nat} {taps : List Word} (hw : ∀ w ∈ taps, 1 ≤ w.toInt ∧ w.toInt ≤ n) :
    i ∈ tapSet n taps ↔ ∃ w ∈ taps, w.toInt = (i : Int) + 1 := by
  rw [mem_tapSet, and_iff_right_iff_imp]
  rintro ⟨w, hmem, hi⟩
  have := (hw w hmem).2
  omega

/-- Settles O40: every check passes, and the fill is the one the policy names. -/
theorem lcfgConfigures : Obligations.LcfgConfigures := by
  intro s u ns taps fill hu h1 hmax ht hw hfill
  obtain ⟨cells, hcells⟩ :=
    exists_fillBits_ok (n := ns) (u := u) (k := (s.lfsrs[u.val]'hu).draws) hfill
  have hexec : exec (.lcfg u ns taps fill) s = _ := exec_lcfg_of_lfsr (List.getElem?_eq_getElem hu)
  rw [configure_eq_map_fillBits ⟨h1, hmax⟩ ht hw, hcells] at hexec
  refine ⟨_, _, hexec, rfl, rfl, rfl, tapSet_ascending _ _, fun i => mem_tapSet_iff_of_valid hw, fillBits_length hcells,
    ?_, ?_, rfl, rfl, rfl, rfl, rfl, rfl, Lfsr.lstate_initialized rfl rfl rfl⟩
  · rintro rfl
    exact (Except.ok.inj hcells).symm
  · rintro cs rfl
    obtain ⟨hlong, hd⟩ := hfill cs rfl
    rw [fillBits_custom_ok hlong hd] at hcells
    exact (Except.ok.inj hcells).symm

end Sys2Proof.Machine
end

section
/-! RUN with no budget always ends by repetition in a state of the invariant (43_lfsr.md R90, R93), and the model's one fault
is raised only where no number of cycles sets REP (log 9). -/

namespace Sys2Proof.Machine

/-! ### From every state of the invariant (R90) -/

/-- The history after `k` more cycles of an instance with the history of some cycles from a fill. -/
theorem Lfsr.ConfiguredInv.history_cycles {nmax : Nat} {l l' : Lfsr} (h : l.ConfiguredInv nmax)
    (hhist : l.history = l'.history) (k : Nat) : (l.cycles k).history = (l'.cycles k).history := by
  induction k with
  | zero => exact hhist
  | succ k ih => exact Lfsr.history_cycle_congr ih (h.cycles k).fpv.mpr

/-- A configured instance has a largest tap (R27). -/
theorem exists_largest_tap {n : Nat} {taps : List Nat} (h : tapsOk n taps) : ∃ M ∈ taps, M < n ∧ ∀ i ∈ taps, i ≤ M := by
  obtain ⟨hne, -, hrange⟩ := h
  obtain ⟨M, hM, hmax⟩ := Finset.exists_max_image taps.toFinset id (List.toFinset_nonempty_iff taps |>.mpr hne)
  exact ⟨M, by simpa using hM, hrange M (by simpa using hM), by simpa using hmax⟩

/-- On an instance that meets the invariants REP is 1 after 2^n - 1 + n more cycles (R90): its history is that of a fill,
whose outputs have a least period of at most 2^n - 1. -/
theorem Lfsr.ConfiguredInv.cycles_rep_of_le {nmax : Nat} {l : Lfsr} (h : l.ConfiguredInv nmax) {k : Nat}
    (hk : 2 ^ l.n - 1 + l.n ≤ k) : (l.cycles k).rep = true := by
  obtain ⟨fill, hfill, hreplay⟩ := h.replay
  obtain ⟨p, -, -, -, hbound, hrep⟩ := periodIsTheLeastPeriod l.n l.taps fill h.taps hfill
  obtain ⟨M, hM, hlt, hmax⟩ := exists_largest_tap h.taps
  have hp := (hbound M hM hmax).1
  have hpow : 2 ^ (M + 1) ≤ 2 ^ l.n := Nat.pow_le_pow_right (by decide) hlt
  have hhist := h.history_cycles hreplay k
  rw [← Lfsr.cycles_add] at hhist
  obtain ⟨-, -, -, -, -, -, hsame, -, -⟩ := Lfsr.history_eq_iff.mp hhist
  rw [hsame]
  exact (hrep _).1.mpr (by omega)

theorem Lfsr.endRun_of_rep {l : Lfsr} {e : Nat} (h : l.rep = true) :
    l.endRun e = { l with lastrun := e, rundone := true, runrep := true } := by
  simp only [Lfsr.endRun, h]

/-- Settles O45: REP is 1 after 2^n - 1 + n cycles, which is below the loop's limit. -/
theorem runWithoutBudgetEndsByRepetition : Obligations.RunWithoutBudgetEndsByRepetition := by
  intro s u l h hl hc
  have hconf := h.configured hl hc
  obtain ⟨e, -, hbefore, hstop, hrun⟩ := exec_run_configured none hl hc
  have hrep : (l.cycles e).rep = true := by
    obtain hrep | (hlimit : e = 2 ^ l.n + l.n) := hstop
    · exact hrep
    · exact hconf.cycles_rep_of_le (hlimit ▸ Nat.add_le_add_right (Nat.sub_le _ 1) _)
  refine ⟨e, ?_, ?_, hbefore, hrep⟩
  · by_contra hlate
    have hnot := hbefore _ (Nat.not_le.mp hlate)
    rw [hconf.cycles_rep_of_le le_rfl] at hnot
    exact Bool.noConfusion hnot
  · rw [hrun, if_neg (by simp [hrep]), Lfsr.endRun_of_rep hrep]
    rfl

/-- In a state of the invariant every command completes. -/
theorem State.Inv.exec_completes {s : State} (h : s.Inv) (i : Instr) : ∃ t, exec i s = .next t := by
  obtain hnext | ⟨u, l, rfl, hl, hc, -⟩ := commandsComplete i s
  · exact hnext
  · obtain ⟨e, -, hrun, -⟩ := runWithoutBudgetEndsByRepetition s u l h hl hc
    exact ⟨_, hrun⟩

theorem State.Inv.transact_completes {s : State} (h : s.Inv) (tr : Transaction) : ∃ t, transact tr s = .next t := by
  cases tr with
  | issue p =>
    cases hd : decode p with
    | ok i => exact transact_issue_of_decode_ok hd s ▸ h.exec_completes i
    | error why => exact ⟨_, transact_issue_of_decode_error hd s⟩
  | read id => exact ⟨_, rfl⟩
  | reset => exact ⟨_, rfl⟩

/-- Settles O52: with nothing pending a step changes nothing, and else it performs a transaction, which completes. -/
theorem everyStepCompletes : Obligations.EveryStepCompletes := by
  intro s h
  cases hp : s.pending with
  | nil => exact ⟨s, by simp only [step, hp]⟩
  | cons tr rest => exact step_of_pending_cons hp ▸ (h.withHost rest s.reply).transact_completes tr

/-! ### From every state: the fault (log 9) -/

/-- The orbit of a point under a map of a finite type is passed through within as many steps as there are elements. -/
theorem exists_iterate_lt_card_eq {α : Type} [Fintype α] (f : α → α) (x : α) (k : Nat) :
    ∃ j, j < Fintype.card α ∧ f^[j] x = f^[k] x := by
  obtain ⟨a, b, hab, hb, heq⟩ : ∃ a b, a < b ∧ b ≤ Fintype.card α ∧ f^[a] x = f^[b] x := by
    obtain ⟨a, b, hne, heq⟩ :=
      Fintype.exists_ne_map_eq_of_card_lt (fun i : Fin (Fintype.card α + 1) => f^[i] x) (by simp)
    obtain hlt | hlt := Fin.lt_or_lt_of_ne hne
    · exact ⟨a, b, hlt, Nat.le_of_lt_succ b.isLt, heq⟩
    · exact ⟨b, a, hlt, Nat.le_of_lt_succ a.isLt, heq.symm⟩
  induction k using Nat.strong_induction_on with
  | _ k ih =>
    by_cases hk : k < Fintype.card α
    · exact ⟨k, hk, rfl⟩
    · obtain ⟨j, hj, hjk⟩ := ih (k - b + a) (by omega)
      refine ⟨j, hj, ?_⟩
      calc f^[j] x
        _ = f^[k - b] (f^[a] x) := by rw [hjk, Function.iterate_add_apply]
        _ = f^[k] x := by rw [heq, ← Function.iterate_add_apply, Nat.sub_add_cancel (by omega)]

section
variable {l : Lfsr} {M : Nat} (hn : l.n = M + 1) (hlen : l.stages.length = l.n)
include hn hlen

theorem Lfsr.cycles_stages_length (k : Nat) : (l.cycles k).stages.length = l.n := by
  induction k with
  | zero => exact hlen
  | succ k ih =>
    rw [Lfsr.cycles_succ, Lfsr.cycle_stages, List.length_cons, List.length_take, ih, Lfsr.cycles_n]
    omega

/-- A cycle of an instance is a cycle of the window of all its cells, wherever its taps are: one past the last cell reads
as 0. -/
theorem Lfsr.window_cycle_of_length : l.cycle.window M = Window.advance l.taps (l.window M) := by
  have hcell : (l.window M).cell = fun i => l.stages.getD i false := by
    funext i
    by_cases hi : i < M + 1
    · exact Lfsr.window_cell (Nat.le_of_lt_succ hi)
    · simp [Window.cell, hi, show l.stages.length ≤ i by omega]
  funext i
  cases i using Fin.cases with
  | zero => simp [Lfsr.window, Window.advance, hcell, Lfsr.feedback_eq_tapSum]
  | succ i =>
    have hi := i.isLt
    simp [Lfsr.window, Window.advance, Fin.init, show i.val < l.n - 1 by omega]

theorem Lfsr.window_cycles_of_length (k : Nat) :
    (l.cycles k).window M = (Window.advance l.taps)^[k] (l.window M) := by
  induction k with
  | zero => rfl
  | succ k ih =>
    have hwindow := Lfsr.window_cycle_of_length (l := l.cycles k) (by simpa using hn)
      (by simpa using Lfsr.cycles_stages_length hn hlen k)
    rw [Lfsr.cycles_succ, hwindow, ih, Lfsr.cycles_taps, Function.iterate_succ_apply']

end

/-- The last `n` outputs (R88). -/
def Lfsr.lastOutputs (l : Lfsr) : List Bool := l.seq.drop (l.seq.length - l.n)

section
variable {l : Lfsr}

/-- From cycle `n` on the last `n` outputs stand in the cells, the latest first. -/
theorem Lfsr.lastOutputs_cycles {M k : Nat} (hn : l.n = M + 1) (hk : l.n ≤ k) :
    (l.cycles k).lastOutputs = (List.ofFn ((l.cycles k).window M)).reverse := by
  refine List.ext_getElem ?_ fun i h1 h2 => ?_
  · rw [Lfsr.lastOutputs, List.length_drop, List.length_reverse, List.length_ofFn, Lfsr.cycles_seq_length, Lfsr.cycles_n]
    omega
  · have hi : i < M + 1 := by simpa using h2
    have hindex : (l.cycles k).seq.length - (l.cycles k).n + i = l.seq.length + (k - 1 - (M - i)) := by
      rw [Lfsr.cycles_seq_length, Lfsr.cycles_n]
      omega
    simp only [Lfsr.lastOutputs, List.getElem_drop, hindex, List.getElem_reverse, List.getElem_ofFn, List.length_ofFn,
      Lfsr.window_cycles_apply (by omega : M < l.n) hk, Nat.add_sub_cancel]
    simp [Lfsr.cycles_seq]

/-- FP stays once `n` outputs are there (R30). -/
theorem Lfsr.cycles_fp_of_le (h : l.n ≤ l.seq.length) (k : Nat) : (l.cycles k).fp = l.fp := by
  induction k with
  | zero => rfl
  | succ k ih =>
    have hpast : (l.cycles k).seq.length + 1 ≠ (l.cycles k).n := by
      rw [Lfsr.cycles_seq_length, Lfsr.cycles_n]
      omega
    rw [Lfsr.cycles_succ, Lfsr.cycle_fp, if_neg hpast, ih]

theorem Lfsr.cycles_rep_mono {j k : Nat} (h : (l.cycles j).rep = true) (hjk : j ≤ k) : (l.cycles k).rep = true := by
  induction k, hjk using Nat.le_induction with
  | base => exact h
  | succ k _ ih => exact (l.cycles k).cycle_rep_of_rep ih

/-- After cycle `n` a cycle sets REP exactly when the last `n` outputs equal one and the same FP (R88). -/
theorem Lfsr.cycles_succ_rep_of_le {k : Nat} (hk : l.n ≤ k) :
    (l.cycles (k + 1)).rep = true ↔
      (l.cycles k).rep = true ∨ (l.cycles (k + 1)).lastOutputs = (l.cycles l.n).fp := by
  have hfp : (l.cycles k).fp = (l.cycles l.n).fp := by
    rw [← Nat.add_sub_cancel' hk, Lfsr.cycles_add, Lfsr.cycles_fp_of_le (by simp)]
  have hle : (l.cycles k).n ≤ (l.cycles k).seq.length := by
    rw [Lfsr.cycles_n, Lfsr.cycles_seq_length]
    omega
  rw [Lfsr.cycles_succ, Lfsr.cycle_rep_eq_true, and_iff_right hle, hfp, Lfsr.lastOutputs, Lfsr.cycle_seq_length,
    Lfsr.cycle_seq, Lfsr.cycle_n]

/-- A loop that has not ended within 2^n + n cycles never ends: within 2^n cycles after cycle `n` the cells pass through
every contents they will ever have, so every comparison with FP has been made (R88). -/
theorem Lfsr.cycles_rep_of_repeatBound (hpos : 1 ≤ l.n) (hlen : l.stages.length = l.n)
    (h : (l.cycles l.repeatBound).rep = false) (k : Nat) : (l.cycles k).rep = false := by
  obtain ⟨M, hn⟩ : ∃ M, l.n = M + 1 := ⟨l.n - 1, by omega⟩
  have hearly : ∀ j, j ≤ l.n + 2 ^ l.n → ¬ (l.cycles j).rep = true := fun j hj hr =>
    Bool.noConfusion (h.symm.trans (Lfsr.cycles_rep_mono hr (hj.trans_eq (Nat.add_comm _ _))))
  have hmatch : ∀ k, l.n ≤ k → (l.cycles (k + 1)).lastOutputs ≠ (l.cycles l.n).fp := by
    intro k hk heq
    obtain ⟨j, hj, hwindow⟩ :=
      exists_iterate_lt_card_eq (Window.advance l.taps) ((l.cycles (l.n + 1)).window M) (k - l.n)
    rw [show Fintype.card (Window M) = 2 ^ l.n by simp [hn]] at hj
    simp only [Lfsr.window_cycles_of_length hn hlen, ← Function.iterate_add_apply] at hwindow
    simp only [← Lfsr.window_cycles_of_length hn hlen, show k - l.n + (l.n + 1) = k + 1 by omega,
      show j + (l.n + 1) = l.n + j + 1 by omega] at hwindow
    rw [Lfsr.lastOutputs_cycles hn (by omega), ← hwindow, ← Lfsr.lastOutputs_cycles hn (by omega)] at heq
    exact hearly (l.n + j + 1) (Nat.add_le_add_left hj l.n) ((Lfsr.cycles_succ_rep_of_le (by omega)).mpr (.inr heq))
  rw [← Bool.not_eq_true]
  induction k with
  | zero => exact hearly 0 (Nat.zero_le _)
  | succ k ih =>
    by_cases hk : l.n ≤ k
    · rw [Lfsr.cycles_succ_rep_of_le hk]
      exact not_or.mpr ⟨ih, hmatch k hk⟩
    · exact hearly (k + 1) (Nat.le_add_right_of_le (Nat.lt_of_not_le hk))

end

/-- Settles O17: the fault means that REP is 0 after the loop's limit of 2^n + n cycles. -/
theorem faultMeansNoRepetitionEver : Obligations.FaultMeansNoRepetitionEver := by
  intro s u l hl hpos hlen hfault
  obtain ⟨l', hl', hc⟩ : ∃ l', s.lfsrs[u.val]? = some l' ∧ l'.cfg = true := by
    obtain ⟨t, ht⟩ | ⟨l', -, hl', hc, -⟩ := exec_run_completes u none s
    · cases hfault.symm.trans ht
    · exact ⟨l', hl', hc⟩
  obtain rfl : l' = l := Option.some.inj (hl'.symm.trans hl)
  obtain ⟨k, -, -, hstop, hrun⟩ := exec_run_configured none hl hc
  rw [hfault] at hrun
  split at hrun
  · rename_i hrep
    obtain hr | rfl := hstop
    · cases hr.symm.trans hrep.2
    · exact Lfsr.cycles_rep_of_repeatBound hpos hlen hrep.2
  · cases hrun

end Sys2Proof.Machine
end

section
/-! NOP, LDA and LDB (44_interface.md R96 to R98): what each writes, and the two errors of a load. -/

namespace Sys2Proof.Machine

/-! ### Loads of 1 to LMAX digits (R97, R98) -/

/-- The value of the BitVector a load writes is the sum of R97: every character's digit at its own weight. -/
theorem BitString.ofBits_map_digit_val (cs : List Word) : (BitString.ofBits (cs.map digit)).val = charsValue cs := by
  rw [ofBits_val, charsValue_eq]

theorem BitString.ofBits_map_digit_len (cs : List Word) : (BitString.ofBits (cs.map digit)).len = cs.length := by
  rw [ofBits_len, List.length_map]

/-- Settles O32: LDA writes the BitVector of the characters' digits to A, then clears ERR. -/
theorem ldaLoadsTheString : Obligations.LdaLoadsTheString := fun _ cs h1 h2 hd =>
  ⟨_, exec_lda_of_digitsOk h1 h2 hd, BitString.ofBits_map_digit_len cs, BitString.ofBits_map_digit_val cs⟩

/-- Settles O33: LDB writes the BitVector of the characters' digits to B, then clears ERR. -/
theorem ldbLoadsTheString : Obligations.LdbLoadsTheString := fun _ cs h1 h2 hd =>
  ⟨_, exec_ldb_of_digitsOk h1 h2 hd, BitString.ofBits_map_digit_len cs, BitString.ofBits_map_digit_val cs⟩

/-! ### NOP (R96) -/

/-- Settles O31: NOP is a success without other writes. Decoding and encoding agree, so the packets that decode to NOP are
its encoding alone. -/
theorem nopOnlyClearsErr : Obligations.NopOnlyClearsErr := by
  refine ⟨fun _ => ⟨rfl, rfl⟩, fun p => ?_⟩
  have henc : encode .nop = ⟨0x00000000#32, []⟩ := rfl
  rw [decode_eq_ok_iff_encode, henc]
  exact ⟨fun ⟨_, hp⟩ => hp.symm, fun hp => ⟨rfl, hp.symm⟩⟩

/-! ### The errors of a load (R97, R98, R104) -/

/-- A load whose operand is refused raises that error and writes nothing else (R102). -/
theorem exec_load_of_error {s : State} {cs : List Word} {i : Instr} {e : ErrorCode} (hi : i ∈ [Instr.lda cs, Instr.ldb cs])
    (he : loadOperand s.params.lmax cs = .error e) : exec i s = .next (s.raise e) := by
  simp only [List.mem_cons, List.not_mem_nil, or_false] at hi
  obtain rfl | rfl := hi
  · exact exec_lda_of_error he
  · exact exec_ldb_of_error he

/-- Settles O34: both loads check the same operand, and the two errors are its two refusals in their order, whose codes are
6 and 2. -/
theorem loadErrors : Obligations.LoadErrors := by
  intro s cs i hi
  exact ⟨fun hlength => exec_load_of_error hi (loadOperand_invalidLength hlength),
    fun h1 h2 hdigit =>
      exec_load_of_error hi (loadOperand_invalidDigit (by omega) ((not_digitsOk_iff cs).mp hdigit))⟩

end Sys2Proof.Machine
end

section
/-! What a command does to ERR (60_exceptions.md R101 to R103): the codes it can leave, that an error writes nothing else,
and that the code ERR held does not matter. -/

namespace Sys2Proof.Machine

/-- Settles O14: an error writes its own code, which the table lists, and a success writes 0. -/
theorem onlyListedErrorsAreRaised : Obligations.OnlyListedErrorsAreRaised := fun _ _ _ => exec_err

/-! ### An error writes ERR alone (R102) -/

/-- A success writes ERR <- 0 last, so a command that leaves ERR other than 0 raised an error and wrote nothing else. -/
theorem exec_eq_raise_of_err_ne_zero {i : Instr} {s t : State} (h : exec i s = .next t) (herr : t.err ≠ 0#8) :
    ∃ e : ErrorCode, t = s.raise e := by
  cases hu : unitOf i with
  | none =>
    obtain ⟨e, -, ht⟩ | ⟨-, rfl⟩ | ⟨_, _, -, -, rfl⟩ | ⟨_, _, -, -, rfl⟩ | ⟨-, -, -, -, _, _, -, rfl⟩ :=
      exec_cases_of_no_unit hu h
    · exact ⟨e, ht⟩
    all_goals exact absurd (State.succeed_err _) herr
  | some u =>
    obtain ⟨e, ht⟩ | ⟨_, -, ⟨_, _, _, _, -, -, rfl⟩ | ⟨-, -, rfl⟩ | ⟨_, _, -, -, -, rfl⟩⟩ := exec_cases_of_unit hu h
    · exact ⟨e, ht⟩
    all_goals exact absurd (State.succeed_err _) herr

/-- Settles O13: an ISSUE raises IllegalCommand, or performs a command, which leaves ERR other than 0 by raising an error
alone. -/
theorem errorWritesOnlyErr : Obligations.ErrorWritesOnlyErr := by
  intro s t p rest hpending hstep herr
  rw [step_of_pending_cons hpending] at hstep
  cases hdecode : decode p with
  | error why =>
    rw [transact_issue_of_decode_error hdecode] at hstep
    exact ⟨.illegalCommand, (Host.Outcome.next.inj hstep).symm⟩
  | ok i =>
    rw [transact_issue_of_decode_ok hdecode] at hstep
    exact exec_eq_raise_of_err_ne_zero hstep herr

/-! ### ERR is not sticky (R103) -/

/-- ERR belongs to no unit, so a command that completes does the same whatever code ERR held. -/
theorem exec_withErr_of_next {i : Instr} {s t : State} (h : exec i s = .next t) (old : Byte) :
    exec i (s.withErr old) = .next t := by
  rw [exec_of_sameUnit ((s.sameUnit_refl _).withErr old) h, State.graft_withErr]
  exact congrArg Host.Outcome.next (exec_frame h).symm

/-- Settles O15: a command completes with one next state or stops in the one fault, and it completes under both codes of
ERR or under neither. -/
theorem errIsOverwritten : Obligations.ErrIsOverwritten := by
  intro i s old
  change exec i (s.withErr old) = exec i s
  obtain ⟨t, ht⟩ | ⟨-, -, -, -, -, hfault⟩ := commandsComplete i s
  · rw [ht, exec_withErr_of_next ht]
  · obtain ⟨t, ht⟩ | ⟨-, -, -, -, -, hfault'⟩ := commandsComplete i (s.withErr old)
    · exact ht.trans (exec_withErr_of_next ht s.err).symm
    · rw [hfault, hfault']

end Sys2Proof.Machine
end

section
/-! Reset (70_reset_and_hazards.md R115): what the transaction clears and the values right after it; and the wait for the
host (R116). -/

namespace Sys2Proof.Machine

/-! ### The transaction -/

theorem transact_reset (s : State) : transact .reset s = .next s.assertReset := rfl

/-- Settles O10: the reset is taken off the queue and asserted, which brings every instance to reset but for its count of
draws. -/
theorem resetTransactionClears : Obligations.ResetTransactionClears := by
  intro s rest hpending
  have hstep : step s = .next ({ s with pending := rest } : State).assertReset :=
    (step_of_pending_cons hpending).trans (transact_reset _)
  refine ⟨_, hstep, rfl, rfl, rfl, rfl, rfl, ?_, fun l hl => ?_, rfl, rfl⟩
  · rw [State.assertReset_lfsrs, List.length_map]
  · obtain ⟨old, -, rfl⟩ := List.mem_map.mp hl
    exact ⟨rfl, rfl, rfl, rfl, rfl, rfl⟩

/-! ### The values right after it -/

theorem State.resetWith_status (p : Config.Params) (nlfsr : Nat) : (State.resetWith p nlfsr).status = 0#32 := by
  obtain ⟨hstatus, -⟩ := statusLayout
  exact hstatus p nlfsr

theorem Lfsr.reset_lstatus : Lfsr.reset.lstatus = 0#32 := by
  obtain ⟨hzero, -⟩ := lstatusLayout
  exact hzero Lfsr.reset rfl rfl rfl rfl rfl

/-- Settles O11: STATUS and LSTATUS are 0 by their layouts, and every instance is the reset instance. -/
theorem resetStateValues : Obligations.ResetStateValues := by
  intro p nlfsr
  refine ⟨rfl, rfl, rfl, rfl, rfl, State.resetWith_status p nlfsr, List.length_replicate, fun l hl => ?_⟩
  obtain rfl : l = Lfsr.reset := List.eq_of_mem_replicate hl
  exact ⟨rfl, rfl, rfl, rfl, rfl, rfl, Lfsr.lstate_of_unconfigured rfl, Lfsr.reset_lstatus⟩

/-! ### The wait -/

/-- Settles O12: a step looks at the queue first, and an empty one is the case that changes nothing. -/
theorem waitsForTheHost : Obligations.WaitsForTheHost := by
  intro s hpending
  simp only [step, hpending]

end Sys2Proof.Machine
end
